-- ==== Sys2Proof/Word.lean ====
section
/-! DEFINITION. The word types of the block: 32-bit durations (R7), 64-bit command and response words (R43, R45), and the
command value a LOAD carries on its sideband (R43). -/

namespace Sys2Proof

/-- A duration, an index or a cursor: an unsigned 32-bit value (R7, R15, R48). -/
abbrev Word := BitVec 32

/-- A 64-bit command word `cw` (R43) or response word `rw` (R45). -/
abbrev Word64 := BitVec 64

/-- A command value: the sideband operand of a LOAD (R43), "an opaque, protocol-defined value type" (R8).
DESIGN CHOICE (log 2): every encoder's command value is carried as a list of 32-bit words. -/
abbrev Cmd := List Word

end Sys2Proof
end

