-- ==== Sys2Proof/Config.lean ====
section
/-! DEFINITION. What is fixed when the block is built (R21: `S`, `W`, `ENCODERS`), as plain data, and the free values: the
constants without a body that stand for what the spec leaves open. -/

namespace Sys2Proof

/-- Where an encoder's pulse train comes from (R8). -/
inductive Protocol where
  /-- The list encoder of the spec's vectors (D29): a command value is its own pulse train. -/
  | list
  /-- A protocol of the outside world (R4), told apart by a number; its train is `Config.externalTrain`. -/
  | external (id : Nat)
  deriving DecidableEq, Repr

/-- Which count of durations an encoder reports (R59, R62). -/
inductive Report where
  /-- The contract of R59: `min(window, needed)`. -/
  | minimum
  /-- It breaks R62 where its train does not fit: the train's whole length, whatever the window holds (U7; log 4). -/
  | whole
  /-- It breaks R59 in a way the spec does not fix: a count drawn from those that U7 and U8 admit (log 4). -/
  | free
  deriving DecidableEq, Repr

/-- One present entry of `ENCODERS` (R8, R61). The frequency and the `EncoderData` only shape the train: the block reads
neither (R61). -/
structure Encoder where
  protocol : Protocol
  report : Report
  frequency : Nat
  encoderData : List Word
  deriving DecidableEq, Repr

/-- The build configuration (R21). `capacity` is `S`, so `0 <= S <= 2^32 - 1` by its type (R5, D19); `width` is `W` (R6);
`encoders` is `ENCODERS`, indexed by the 4-bit selector, `none` where an entry is absent (R8). -/
structure Config where
  capacity : Word
  width : Nat
  encoders : Vector (Option Encoder) 16
  deriving DecidableEq, Repr

/-- Free value (U9, R8; log 3): the total function `train_sel` of an encoder of the outside world. It depends on the entry's
configuration and on the command only (R60). -/
opaque Config.externalTrain : Encoder → Cmd → List Word

/-- Free value (U7, U8; log 4): the draw from which an encoder that breaks its contract takes its count, for a command and a
window length. The count alone is free: the train is not (R60). -/
opaque Config.freeCount : Encoder → Cmd → Nat → Nat

/-- Free value (U1, U2; log 8): what a slot holds that no LOAD has written since the block was built. -/
opaque Config.unsetSlot : Nat → Word

/-- OPEN parameter `S` (R5, U10; log 1) of the block that `State.reset` is a state of. -/
opaque Config.builtCapacity : Word

/-- OPEN parameter `ENCODERS` (R8, D11; log 1) of the block that `State.reset` is a state of. -/
opaque Config.builtEncoders : Vector (Option Encoder) 16

end Sys2Proof
end

