-- ==== Sys2Proof/Syntax.lean ====
section
/-! DEFINITION. The seven commands of the opcode table (R46), the transaction that carries one (R43), and the assembler lines
of R57 and R58. -/

namespace Sys2Proof

/-- A command with its operands, one constructor per row of the opcode table (R46). -/
inductive Instr where
  /-- NEW (R86). -/
  | new
  /-- LOAD (R88): the encoder selector (R47) and the sideband command value (R43). -/
  | load (sel : BitVec 4) (cmd : Cmd)
  /-- TICK (R89). -/
  | tick
  /-- RESET (R91). -/
  | reset
  /-- GET (R92): the unsigned 32-bit index (R48). -/
  | get (index : Word)
  /-- LEN (R93). -/
  | len
  /-- BUFFER (R94). -/
  | buffer
  deriving DecidableEq, Repr

/-- The mnemonic of a command, as the opcode table spells it. -/
def Instr.mnemonic : Instr → String
  | .new => "NEW"
  | .load _ _ => "LOAD"
  | .tick => "TICK"
  | .reset => "RESET"
  | .get _ => "GET"
  | .len => "LEN"
  | .buffer => "BUFFER"

/-- The two issuers of commands (R10). No rule reads which one issued a command (R108). -/
inductive Issuer where
  | host
  | tickSource
  deriving DecidableEq, Repr

/-- One transaction (R43): a command word, and the sideband operand that only a LOAD reads. -/
structure Transaction where
  issuer : Issuer
  word : Word64
  sideband : Cmd
  deriving DecidableEq, Repr

/-- What reaches the block (R35, R113): a command, or the reset input. -/
inductive Input where
  | command (tx : Transaction)
  | resetInput
  deriving DecidableEq, Repr

/-- A line of assembler text (R57), with the pseudo-commands (R58). Its numbers are as written, not yet checked for range. -/
inductive Line where
  | new
  | load (sel : Nat) (cmd : List Nat)
  | tick
  | reset
  | get (index : Nat)
  | len
  | buffer
  /-- ABORT (R58). -/
  | abort
  /-- RELOAD (R58). -/
  | reload (sel : Nat) (cmd : List Nat)
  /-- TICKS (R58). -/
  | ticks (n : Nat)
  deriving DecidableEq, Repr

end Sys2Proof
end

