-- ==== Sys2Proof/WellFormed.lean ====
section
/-! DEFINITION. The checks that the types of the syntax do not make already. -/

namespace Sys2Proof

/-- The counter width satisfies `W >= 2` (R6). `S < 2^32` (R5) and the sixteen entries (R8) hold by type. -/
def Config.wf (cfg : Config) : Bool := decide (2 ≤ cfg.width)

/-- A LOAD's selector names a present entry of `ENCODERS` (R47, R87). Every other command is well formed by its type. -/
def Instr.wf (cfg : Config) : Instr → Bool
  | .load sel _ => (cfg.encoders.get sel.toFin).isSome
  | .new => true
  | .tick => true
  | .reset => true
  | .get _ => true
  | .len => true
  | .buffer => true

/-- Only a LOAD (`op = 0x2`) comes with a sideband operand (R43). -/
def Transaction.wf (tx : Transaction) : Bool :=
  tx.word.extractLsb' 60 4 == 2#4 || tx.sideband.isEmpty

/-- Every duration of a written command value is a 32-bit value (R7). -/
def durationsWf (cmd : List Nat) : Bool := cmd.all (· < 2 ^ 32)

/-- A line's numbers are in the ranges of R57: `<sel>` is 0 to 15, `<index>` is 0 to 2^32 - 1. -/
def Line.wf : Line → Bool
  | .load sel cmd => decide (sel < 16) && durationsWf cmd
  | .reload sel cmd => decide (sel < 16) && durationsWf cmd
  | .get index => decide (index < 2 ^ 32)
  | .new => true
  | .tick => true
  | .reset => true
  | .len => true
  | .buffer => true
  | .abort => true
  | .ticks _ => true

end Sys2Proof
end

