-- ==== Sys2Proof/Decode.lean ====
section
/-! DEFINITION. Command words (30_encoding.md): the fields of R44, the decoder of R46 and R49, the encoder, and the opcode
table as rows of match and mask. -/

namespace Sys2Proof

/-- `op = cw[63:60]` (R44). -/
def opField (cw : Word64) : BitVec 4 := cw.extractLsb' 60 4

/-- `sel = cw[59:56]` (R44, R47). -/
def selField (cw : Word64) : BitVec 4 := cw.extractLsb' 56 4

/-- The reserved field `cw[55:32]` (R44). -/
def reservedField (cw : Word64) : BitVec 24 := cw.extractLsb' 32 24

/-- `arg = cw[31:0]` (R44, R48). -/
def argField (cw : Word64) : Word := cw.extractLsb' 0 32

/-- Why a word spells no command (R54). Both reasons are refused as `ReservedCommand`. -/
inductive Reserved where
  /-- `op` is `0x0` or `0x8` to `0xF` (R46). -/
  | opcode
  /-- A field that must be zero is not (R49). -/
  | field
  deriving DecidableEq, Repr

/-- The zero checks of R49: `reserved` is zero, `sel` is zero unless the command uses it, and so is `arg`. -/
def zerosHold (usesSel usesArg : Bool) (cw : Word64) : Bool :=
  reservedField cw == 0 && (usesSel || selField cw == 0) && (usesArg || argField cw == 0)

/-- The command `i` of a word whose opcode names it, if the zero checks hold. -/
def checked (usesSel usesArg : Bool) (cw : Word64) (i : Instr) : Except Reserved Instr :=
  if zerosHold usesSel usesArg cw then .ok i else .error .field

/-- The decoder, total on every word (R55): first `op` (R46), then the zero checks (R49). The third check of R55, the presence
of the encoder, needs the configuration and is LOAD's first act (R87). -/
def decode (cw : Word64) (sideband : Cmd) : Except Reserved Instr :=
  match (opField cw).toNat with
  | 1 => checked false false cw .new
  | 2 => checked true false cw (.load (selField cw) sideband)
  | 3 => checked false false cw .tick
  | 4 => checked false false cw .reset
  | 5 => checked false true cw (.get (argField cw))
  | 6 => checked false false cw .len
  | 7 => checked false false cw .buffer
  | _ => .error .opcode

/-- The word `{op, sel, 24'b0, arg}` (R57). -/
def commandWord (op sel : BitVec 4) (arg : Word) : Word64 := op ++ sel ++ 0#24 ++ arg

/-- The command word of a command (R44, R46). -/
def encode : Instr → Word64
  | .new => commandWord 1 0 0
  | .load sel _ => commandWord 2 sel 0
  | .tick => commandWord 3 0 0
  | .reset => commandWord 4 0 0
  | .get index => commandWord 5 0 index
  | .len => commandWord 6 0 0
  | .buffer => commandWord 7 0 0

/-- The sideband operand that goes with the word: a LOAD's command value, nothing for any other command (R43). -/
def sidebandOf : Instr → Cmd
  | .load _ cmd => cmd
  | .new => []
  | .tick => []
  | .reset => []
  | .get _ => []
  | .len => []
  | .buffer => []

/-- The transaction by which an issuer gives a command (R43). -/
def transactionOf (who : Issuer) (i : Instr) : Transaction :=
  { issuer := who, word := encode i, sideband := sidebandOf i }

/-- A row of the opcode table: a word is the row's command exactly if it equals `value` under `mask`. -/
structure Row where
  mnemonic : String
  value : Word64
  mask : Word64
  deriving DecidableEq, Repr

/-- The word is one of the row's. -/
def Row.holds (r : Row) (cw : Word64) : Bool := cw &&& r.mask == r.value

/-- `opcode_table.json`, its match and mask columns. -/
def opcodeTable : List Row :=
  [ { mnemonic := "NEW", value := 0x1000000000000000, mask := 0xFFFFFFFFFFFFFFFF },
    { mnemonic := "LOAD", value := 0x2000000000000000, mask := 0xF0FFFFFFFFFFFFFF },
    { mnemonic := "TICK", value := 0x3000000000000000, mask := 0xFFFFFFFFFFFFFFFF },
    { mnemonic := "RESET", value := 0x4000000000000000, mask := 0xFFFFFFFFFFFFFFFF },
    { mnemonic := "GET", value := 0x5000000000000000, mask := 0xFFFFFFFF00000000 },
    { mnemonic := "LEN", value := 0x6000000000000000, mask := 0xFFFFFFFFFFFFFFFF },
    { mnemonic := "BUFFER", value := 0x7000000000000000, mask := 0xFFFFFFFFFFFFFFFF } ]

/-- The 64-bit command word of a table word of `nbits` bits: the bits above are zero. -/
def tableWord (nbits w : Nat) : Word64 := BitVec.ofNat 64 (w % 2 ^ nbits)

/-- The command the decoder reads from a table word. The table gives LOAD's sideband no bits, so it is the empty value. -/
def decodeTableWord (nbits w : Nat) : Option Instr :=
  match decode (tableWord nbits w) [] with
  | .ok i => some i
  | .error _ => none

end Sys2Proof
end

