-- ==== Sys2Proof/Machine/Build.lean ====
section
/-! DEFINITION. The configuration of the block that `State.reset` is a state of, and the spec's test configuration. -/

namespace Sys2Proof.Machine

/-- The configuration at reset: `W = 32` (R6, D1); `S` and `ENCODERS` are OPEN (R5, R8; log 1). -/
def builtConfig : Config :=
  { capacity := Config.builtCapacity, width := 32, encoders := Config.builtEncoders }

/-- The list encoder of the spec's vectors (D29), which keeps the contract of R59. -/
def listEncoder : Encoder :=
  { protocol := .list, report := .minimum, frequency := 0, encoderData := [] }

/-- The test configuration of 95_test_vectors.md: `ENCODERS[0]` is the list encoder, every other entry is absent. The vectors
take `S = 8` and `W = 32` unless they say otherwise. -/
def testConfig (capacity : Word) (width : Nat) : Config :=
  { capacity := capacity, width := width,
    encoders := Vector.ofFn fun i => if i.val = 0 then some listEncoder else none }

end Sys2Proof.Machine
end

