-- ==== Sys2Proof/Machine/State.lean ====
section
/-! DEFINITION. The state of the block (10_state.md R27) with its configuration and its boundary, the reasons a step can stop,
and the state after reset (R113). -/

namespace Sys2Proof.Machine

/-- The duration store (R16, R28): index and duration of every slot that holds a defined value, indices strictly rising. A slot
that is not listed is absent: it "holds no defined value" (R16). Whole 32-bit slots, no bytes (R29). -/
abbrev Memory := List (Nat × Word)

/-- The canonical form: the listed indices rise strictly, so equal stores are equal lists. -/
abbrev Memory.wf (m : Memory) : Prop := (m.map Prod.fst).Pairwise (· < ·)

/-- A transmission status (R73). -/
inductive Status where
  /-- "no active transmission" -/
  | idle
  /-- "actively outputting, carrier state given": `true` is carrier on -/
  | transmit (carrierOn : Bool)
  /-- "unrecoverable encoding/timing fault" -/
  | error
  deriving DecidableEq, Repr

/-- A response (R45): a 64-bit word (TICK, GET, LEN) or a list of 32-bit words (BUFFER). -/
inductive Response where
  | word (rw : Word64)
  | list (ws : List Word)
  deriving DecidableEq, Repr

/-- Why a run stops with a fault (R99, R104). -/
inductive Fault where
  /-- Raised by an accepted LOAD whose encoder reports more durations than its window holds (R62, U7). Safe: the spec gives
  such a count no meaning, and an encoder that keeps the contract of R59 never raises it. -/
  | encoderOverrun
  deriving DecidableEq, Repr

/-- Why a command has no meaning (R99, R104). -/
inductive Refusal where
  /-- Raised by no command: every row of the opcode table has its meaning. Safe. -/
  | notModelled (mnemonic : String)
  /-- Raised by decoding: the word spells no command (R54). Safe: the run stops. -/
  | reservedCommand
  /-- Raised by LOAD: its selector names no present encoder (R87). Safe: the run stops. -/
  | noSuchEncoder
  deriving DecidableEq, Repr

/-- The block. `cursor`, `storage`, `counter` and `pinEn` are its state (R27); `cfg` is its fixed configuration (R21; log 1);
`stream`, `responses` and `pinTrace` are its boundary: what reaches it (R35) and what leaves it (R97; log 5, log 9). -/
structure State where
  /-- `S`, `W` and `ENCODERS` (R21). No step writes it. -/
  cfg : Config
  /-- The write cursor (R15). -/
  cursor : Word
  /-- The duration store (R16). -/
  storage : Memory
  /-- The tick counter (R17), a `W`-bit value: below `2 ^ W` in every reachable state. -/
  counter : Nat
  /-- The level last driven onto the pin, `pin_en` (R20). -/
  pinEn : Bool
  /-- The inputs not yet taken, oldest first (R35). -/
  stream : List Input
  /-- The responses given so far, oldest first (R97). -/
  responses : List Response
  /-- The levels `pin` has written so far, oldest first (R97). -/
  pinTrace : List Bool
  deriving DecidableEq, Repr

/-- The state of R113 of a block with configuration `cfg`, and nothing at its boundary but the `disable()` of reset. -/
def State.resetWith (cfg : Config) : State :=
  { cfg := cfg
    cursor := 0
    storage := []
    counter := 0
    pinEn := false
    stream := []
    responses := []
    pinTrace := [false] }

/-- The machine right after reset (R113). -/
def State.reset : State := State.resetWith builtConfig

end Sys2Proof.Machine
end

