-- ==== Sys2Proof/Machine/Flags.lean ====
section
/-! DEFINITION. The status function (R74) and the response encodings (R50 to R52). The block has no flags (R23): the status is
the one condition it computes, and it is never stored (R18). -/

namespace Sys2Proof.Machine

/-- The total duration `T` of a train: an exact natural number, no wrap (R75). -/
def total (buf : List Word) : Nat := (buf.map BitVec.toNat).sum

/-- The boundary `B(k)`: the cumulative duration of the first `k` segments (R75). -/
def boundary (buf : List Word) (k : Nat) : Nat := total (buf.take k)

/-- The segment that holds `e`: the least `k < n` with `e <= B(k+1)` (R77). -/
def segment (buf : List Word) (e : Nat) : Nat :=
  (List.range buf.length).findIdx fun k => decide (e ≤ boundary buf (k + 1))

/-- `status(buf, e)` for a counter of `W` bits (R74), its checks in the order of R82. -/
def status (W : Nat) (buf : List Word) (e : Nat) : Status :=
  if buf.isEmpty then .idle
  else if buf.any (· == 0) then .error
  else if 2 ^ W - 2 < total buf then .error
  else if total buf < e then .idle
  else .transmit (segment buf e % 2 == 0)

/-- The pin level a status gives (R90): 1 for `Transmit(true)`, 0 for every other status. -/
def pinLevel : Status → Bool
  | .transmit c => c
  | .idle => false
  | .error => false

/-- The response word of TICK (R50). -/
def statusCode : Status → Word64
  | .idle => 0b00
  | .error => 0b01
  | .transmit false => 0b10
  | .transmit true => 0b11

/-- The response word of GET (R51): bit 32 says `Some`, bits 31 to 0 hold the value. -/
def optionCode : Option Word → Word64
  | some v => 1#32 ++ v
  | none => 0

/-- The response word of LEN (R52): the length in bits 31 to 0. -/
def lengthCode (n : Word) : Word64 := 0#32 ++ n

end Sys2Proof.Machine
end

