-- ==== Sys2Proof/Machine/Operands.lean ====
section
/-! DEFINITION. The operands of LOAD: the encoder its selector names (R47), its pulse train (R8), and the count it reports
and the durations it writes (R59, R62). -/

namespace Sys2Proof.Machine

/-- `ENCODERS[sel]`, `none` where the entry is absent (R8, R47). -/
def encoderAt (cfg : Config) (sel : BitVec 4) : Option Encoder := cfg.encoders.get sel.toFin

/-- `train_sel(cmd)` (R8): the full pulse train the encoder needs for a command. A function of the entry and of the command
value alone (R60). -/
def train (e : Encoder) (cmd : Cmd) : List Word :=
  match e.protocol with
  | .list => cmd
  | .external _ => Config.externalTrain e cmd

/-- The count that a draw stands for, with `needed` durations in the train and a window of length `w`: a draw above the window is
itself the count (U7), any other is a count in `0..min(w, needed)` (U8). -/
def drawnCount (needed w draw : Nat) : Nat := if w < draw then draw else min draw needed

/-- The number of durations that `encode(cmd, window)` returns for a window of length `w` (R59): `min(w, needed)` from an encoder
that keeps its contract; the other two break it (R62, U7, U8; log 4). -/
def reportedCount (e : Encoder) (cmd : Cmd) (w : Nat) : Nat :=
  match e.report with
  | .minimum => min w (train e cmd).length
  | .whole => (train e cmd).length
  | .free => drawnCount (train e cmd).length w (Config.freeCount e cmd w)

/-- The durations written from offset 0 of a window of length `w` (R59): the first of the train, as many as the encoder reports.
Every LOAD of one entry and one command presents the same train (R60). -/
def encoded (e : Encoder) (cmd : Cmd) (w : Nat) : List Word := (train e cmd).take (reportedCount e cmd w)

end Sys2Proof.Machine
end

