-- ==== Sys2Proof/Machine/Ops.lean ====
section
/-! DEFINITION. The named operations: the slot primitives (R33), the Pulse Buffer's operations (R63 to R68), the current status
(R18), the pin (R90) and the response (R13). The block has no exception to take and none to return from (R100). -/

namespace Sys2Proof.Machine

/-- The value listed for slot `i`, if there is one. -/
def Memory.lookup : Memory → Nat → Option Word
  | [], _ => none
  | (k, v) :: rest, i => if i = k then some v else Memory.lookup rest i

/-- `MemRead(i)` (R33). A slot with no defined value reads as a free value (R16, U1; log 8); no rule reads one. -/
def Memory.read (m : Memory) (i : Nat) : Word := (m.lookup i).getD (Config.unsetSlot i)

/-- `MemWrite(i, v)` (R33), keeping the canonical form. -/
def Memory.write : Memory → Nat → Word → Memory
  | [], i, v => [(i, v)]
  | (k, x) :: rest, i, v =>
    if i < k then (i, v) :: (k, x) :: rest
    else if i = k then (i, v) :: rest
    else (k, x) :: Memory.write rest i v

/-- The writes of PB_LOAD (R68): the durations in index order, from slot `i` upward. -/
def Memory.writeAll : Memory → Nat → List Word → Memory
  | m, _, [] => m
  | m, i, v :: vs => Memory.writeAll (m.write i v) (i + 1) vs

/-- `buf = storage[0..cursor)` (R15): PB_BUFFER (R66). -/
def State.buf (s : State) : List Word := (List.range s.cursor.toNat).map s.storage.read

/-- The current status, computed when it is needed and never stored (R18). -/
def State.status (s : State) : Status := Machine.status s.cfg.width s.buf s.counter

/-- The window length `w = S - cursor` (R59). -/
def State.window (s : State) : Nat := s.cfg.capacity.toNat - s.cursor.toNat

/-- `pin(level)` (R90): the level is driven, and the call is seen outside (R97). -/
def State.drivePin (s : State) (level : Bool) : State :=
  { s with pinEn := level, pinTrace := s.pinTrace ++ [level] }

/-- `respond(v)` (R13): the response leaves the block. -/
def State.respond (s : State) (r : Response) : State :=
  { s with responses := s.responses ++ [r] }

/-- `counter <- v`. -/
def State.setCounter (s : State) (v : Nat) : State := { s with counter := v }

/-- The block with its next input taken from the stream (R35). -/
def State.setStream (s : State) (rest : List Input) : State := { s with stream := rest }

/-- PB_NEW (R63): an empty buffer, "all storage logically unset", so every slot is absent (R16). -/
def State.pbNew (s : State) : State := { s with cursor := 0, storage := [] }

/-- PB_RESET (R64): no slot is written. -/
def State.pbReset (s : State) : State := { s with cursor := 0 }

/-- PB_GET (R65). -/
def State.pbGet (s : State) (i : Nat) : Option Word :=
  if i < s.cursor.toNat then some (s.storage.read i) else none

/-- The writes and the cursor's advance of PB_LOAD (R68). -/
def State.append (s : State) (ds : List Word) : State :=
  { s with
    storage := s.storage.writeAll s.cursor.toNat ds
    cursor := s.cursor + BitVec.ofNat 32 ds.length }

/-- PB_LOAD (R68): the encoder writes into the window, the cursor advances by the count it reports. A count above the window
faults and changes nothing (R62, D12). -/
def State.pbLoad (s : State) (e : Encoder) (cmd : Cmd) : Host.Outcome State Fault Refusal :=
  if reportedCount e cmd s.window ≤ s.window then .next (s.append (encoded e cmd s.window))
  else .fault .encoderOverrun

/-- PS_LOAD_COMMAND (R81): "delegates to the Pulse Buffer's load". -/
def State.psLoadCommand (s : State) (e : Encoder) (cmd : Cmd) : Host.Outcome State Fault Refusal :=
  s.pbLoad e cmd

end Sys2Proof.Machine
end

