-- ==== Sys2Proof/Machine/Control.lean ====
section
/-! DEFINITION. The commands that empty the block: NEW (R86) and RESET (R91). -/

namespace Sys2Proof.Machine

/-- NEW (R86): PB_NEW, `counter <- 0`, `pin(0)`. No response. -/
def execNew (s : State) : Host.Outcome State Fault Refusal :=
  .next ((s.pbNew.setCounter 0).drivePin false)

/-- RESET (R91): PB_RESET, in every status; `counter` and `pin_en` are not written. No response. -/
def execReset (s : State) : Host.Outcome State Fault Refusal :=
  .next s.pbReset

end Sys2Proof.Machine
end

