-- ==== Sys2Proof/Machine/Load.lean ====
section
/-! DEFINITION. LOAD: the encoder check (R87), the status gate (R88), the append and the counter's restart. -/

namespace Sys2Proof.Machine

/-- `counter <- 0` after a load that went through (R88). -/
def restartCounter : Host.Outcome State Fault Refusal → Host.Outcome State Fault Refusal
  | .next s => .next (s.setCounter 0)
  | .fault r => .fault r
  | .refused r => .refused r

/-- The gate of R88: the load goes through only while the current status is `Idle`; otherwise it is a silent no-op (R95). -/
def gatedLoad (e : Encoder) (cmd : Cmd) (s : State) : Host.Outcome State Fault Refusal :=
  if s.status = .idle then restartCounter (s.psLoadCommand e cmd) else .next s

/-- LOAD (R88): an absent encoder is refused before any other effect (R87). `pin_en` is never written. No response. -/
def execLoad (sel : BitVec 4) (cmd : Cmd) (s : State) : Host.Outcome State Fault Refusal :=
  match encoderAt s.cfg sel with
  | none => .refused .noSuchEncoder
  | some e => gatedLoad e cmd s

end Sys2Proof.Machine
end

