-- ==== Sys2Proof/Machine/Read.lean ====
section
/-! DEFINITION. The commands without a side effect (R34): GET (R92), LEN (R93) and BUFFER (R94). -/

namespace Sys2Proof.Machine

/-- GET (R92): the duration at the index, or `None` at and above the cursor. -/
def execGet (index : Word) (s : State) : Host.Outcome State Fault Refusal :=
  .next (s.respond (.word (optionCode (s.pbGet index.toNat))))

/-- LEN (R93): the cursor. -/
def execLen (s : State) : Host.Outcome State Fault Refusal :=
  .next (s.respond (.word (lengthCode s.cursor)))

/-- BUFFER (R94): one atomic snapshot of the valid durations. -/
def execBuffer (s : State) : Host.Outcome State Fault Refusal :=
  .next (s.respond (.list s.buf))

end Sys2Proof.Machine
end

