-- ==== Sys2Proof/Machine/Tick.lean ====
section
/-! DEFINITION. TICK (R89): the one command that advances the counter and drives the pin from the status. -/

namespace Sys2Proof.Machine

/-- `(counter + 1) mod 2^W` (R17). -/
def State.nextCounter (s : State) : Nat := (s.counter + 1) % 2 ^ s.cfg.width

/-- The pin and the response for the status of a block whose counter has advanced (R89, R90). -/
def State.report (s : State) : State :=
  (s.drivePin (pinLevel s.status)).respond (.word (statusCode s.status))

/-- TICK (R89): the counter advances, then the status at the new counter drives the pin and is answered. -/
def execTick (s : State) : Host.Outcome State Fault Refusal :=
  .next (s.setCounter s.nextCounter).report

end Sys2Proof.Machine
end

