-- ==== Sys2Proof/Machine/Dispatch.lean ====
section
/-! DEFINITION. One arm per command of the opcode table. -/

namespace Sys2Proof.Machine

def exec (i : Instr) (s : State) : Host.Outcome State Fault Refusal :=
  match i with
  | .new => Sys2Proof.Machine.execNew s
  | .load sel cmd => Sys2Proof.Machine.execLoad sel cmd s
  | .tick => Sys2Proof.Machine.execTick s
  | .reset => Sys2Proof.Machine.execReset s
  | .get index => Sys2Proof.Machine.execGet index s
  | .len => Sys2Proof.Machine.execLen s
  | .buffer => Sys2Proof.Machine.execBuffer s

end Sys2Proof.Machine
end

