-- ==== Sys2Proof/Machine/Issue.lean ====
section
/-! DEFINITION. What a step does with the input it takes: a command is decoded and then executed or refused (R85), the reset
input acts as NEW (R113), and with nothing to take the block waits (R114). -/

namespace Sys2Proof.Machine

/-- One command (R85): a word that spells none is refused (R54), any other is executed in full. The issuer plays no part
(R108). -/
def runTransaction (tx : Transaction) (s : State) : Host.Outcome State Fault Refusal :=
  match decode tx.word tx.sideband with
  | .ok i => exec i s
  | .error _ => .refused .reservedCommand

/-- One input, already taken from the stream. -/
def runInput (input : Input) (s : State) : Host.Outcome State Fault Refusal :=
  match input with
  | .command tx => runTransaction tx s
  | .resetInput => execNew s

/-- Take the oldest input of the stream and act on it; wait while there is none (R114). -/
def runNext (s : State) : Host.Outcome State Fault Refusal :=
  match s.stream with
  | [] => .next s
  | input :: rest => runInput input (s.setStream rest)

/-- The transaction of a word of the opcode table: from the host, with the empty command value. -/
def tableTransaction (nbits w : Nat) : Transaction :=
  { issuer := .host, word := tableWord nbits w, sideband := [] }

end Sys2Proof.Machine
end

