-- ==== Sys2Proof/Machine/Step.lean ====
section
/-! DEFINITION. The step: one input of the stream, one atomic command (R32, R35). -/

namespace Sys2Proof.Machine

/-- One step of the block. -/
def step (s : State) : Host.Outcome State Fault Refusal := runNext s

/-- The word placed where `step` takes its next command: at the head of the stream (log 6). -/
def State.withFetchWord (s : State) (nbits w : Nat) : State :=
  s.setStream (.command (tableTransaction nbits w) :: s.stream)

end Sys2Proof.Machine
end

