-- ==== Sys2Proof/Machine/Assembler.lean ====
section
/-! DEFINITION. The assembler: lines of text (R57), the commands each line stands for (R58), and the inputs a program gives the
block. -/

namespace Sys2Proof.Machine

/-- A token of a line: a run of characters, or one of `,` `[` `]`. -/
abbrev Token := List Char

/-- The characters that separate tokens. -/
def isBlank (c : Char) : Bool := c == ' ' || c == '\t'

/-- The characters that are tokens of their own. -/
def isPunctuation (c : Char) : Bool := c == ',' || c == '[' || c == ']'

/-- The token read so far, `w` in reverse, put before the tokens that follow. -/
def flush (w : Token) (rest : List Token) : List Token :=
  if w.isEmpty then rest else w.reverse :: rest

/-- The tokens of a line up to its comment: `;` starts a comment (R57). -/
def tokens : List Char → Token → List Token
  | [], w => flush w []
  | c :: cs, w =>
    if c == ';' then flush w []
    else if isBlank c then flush w (tokens cs [])
    else if isPunctuation c then flush w ([c] :: tokens cs [])
    else tokens cs (c :: w)

/-- The digits of R57's numbers, each at the place that is its value. -/
def numerals : List Char := "0123456789abcdef".toList

/-- The value of a character as a digit of a base up to 16; a hexadecimal digit may be a capital (log 14). -/
def digitIn (base : Nat) (c : Char) : Option Nat := (numerals.take base).idxOf? c.toLower

/-- The number that digits spell in a base, the most significant first. -/
def valueIn (base : Nat) (ds : List Nat) : Nat := ds.foldl (fun n d => base * n + d) 0

/-- The number that a token spells in a base: at least one digit, and nothing but digits. -/
def numberIn (base : Nat) (t : Token) : Option Nat :=
  if t.isEmpty then none else (t.mapM (digitIn base)).map (valueIn base)

/-- A decimal number (R57). -/
def decimal (t : Token) : Option Nat := numberIn 10 t

/-- A decimal or `0x` hexadecimal number (R57). -/
def number : Token → Option Nat
  | '0' :: 'x' :: t => numberIn 16 t
  | t => decimal t

/-- The rest of a list after an element, to its closing bracket. -/
def moreDurations : List Token → Option (List Nat)
  | [[']']] => some []
  | [','] :: t :: rest =>
    match number t, moreDurations rest with
    | some n, some ns => some (n :: ns)
    | _, _ => none
  | _ => none

/-- A command value in the list encoder's notation, such as `[3, 2, 1]` (R57). -/
def durations : List Token → Option (List Nat)
  | [['['], [']']] => some []
  | ['['] :: t :: rest =>
    match number t, moreDurations rest with
    | some n, some ns => some (n :: ns)
    | _, _ => none
  | _ => none

/-- The operands `<sel>, <cmd>` of LOAD and RELOAD (R57, R58). -/
def loadOperands : List Token → Option (Nat × List Nat)
  | sel :: [','] :: rest =>
    match decimal sel, durations rest with
    | some n, some ds => some (n, ds)
    | _, _ => none
  | _ => none

/-- The one number that is the operand of GET or TICKS. -/
def oneOperand (read : Token → Option Nat) : List Token → Option Nat
  | [t] => read t
  | _ => none

/-- A line whose mnemonic takes no operand. -/
def bare (args : List Token) (l : Line) : Option Line := if args.isEmpty then some l else none

/-- The line that a mnemonic and its operand tokens spell (R57, R58). -/
def parseTokens (m : Token) (args : List Token) : Option Line :=
  if m == "NEW".toList then bare args .new
  else if m == "LOAD".toList then (loadOperands args).map fun p => .load p.1 p.2
  else if m == "TICK".toList then bare args .tick
  else if m == "RESET".toList then bare args .reset
  else if m == "GET".toList then (oneOperand number args).map .get
  else if m == "LEN".toList then bare args .len
  else if m == "BUFFER".toList then bare args .buffer
  else if m == "ABORT".toList then bare args .abort
  else if m == "RELOAD".toList then (loadOperands args).map fun p => .reload p.1 p.2
  else if m == "TICKS".toList then (oneOperand decimal args).map .ticks
  else none

/-- The lines of one line of text: none for a blank or a comment, one for a command with operands in range; `none` where the text
spells no line (R57). -/
def parseLine (text : String) : Option (List Line) :=
  match tokens text.toList [] with
  | [] => some []
  | m :: args =>
    match parseTokens m args with
    | some l => if l.wf then some [l] else none
    | none => none

/-- The commands a line stands for, in order (R57, R58). -/
def expand : Line → List Instr
  | .new => [.new]
  | .load sel cmd => [.load (BitVec.ofNat 4 sel) (cmd.map (BitVec.ofNat 32))]
  | .tick => [.tick]
  | .reset => [.reset]
  | .get index => [.get (BitVec.ofNat 32 index)]
  | .len => [.len]
  | .buffer => [.buffer]
  | .abort => [.reset, .tick]
  | .reload sel cmd => [.reset, .load (BitVec.ofNat 4 sel) (cmd.map (BitVec.ofNat 32))]
  | .ticks n => List.replicate n .tick

/-- The commands of a text, line by line; `none` where some line is no line of R57. -/
def assemble : List String → Option (List Instr)
  | [] => some []
  | text :: rest =>
    match parseLine text, assemble rest with
    | some ls, some is => some (ls.flatMap expand ++ is)
    | _, _ => none

/-- The input by which an issuer gives a command. -/
def inputOf (who : Issuer) (i : Instr) : Input := .command (transactionOf who i)

/-- The inputs of a program: every command in order (R43, R57). -/
def inputsOf (who : Issuer) (is : List Instr) : List Input := is.map (inputOf who)

end Sys2Proof.Machine
end

