-- ==== Sys2Proof/Safety.lean ====
section
/-! DEFINITION. The terms in which claims are made: the invariant of reachable states, states that no command tells apart
(R27), runs and the waveform a train should give (R77). -/

namespace Sys2Proof.Machine

/-- The invariant of reachable states: the configuration is legal (R6), the cursor is within capacity (R15), the store is in
canonical form, within capacity and defined below the cursor (R16, R28), the counter is a `W`-bit value (R17), and the pin holds
the level last written (R20). -/
structure State.Inv (s : State) : Prop where
  cfg_wf : s.cfg.wf = true
  cursor_le : s.cursor.toNat ≤ s.cfg.capacity.toNat
  storage_wf : Memory.wf s.storage
  storage_lt : ∀ c ∈ s.storage, c.1 < s.cfg.capacity.toNat
  storage_set : ∀ i, i < s.cursor.toNat → (s.storage.lookup i).isSome = true
  counter_lt : s.counter < 2 ^ s.cfg.width
  pin_last : s.pinTrace.getLast? = some s.pinEn

/-- Two states that agree on `cursor`, `storage[0..cursor)`, `counter` and `pin_en` (R27), are states of one block (R21) and have
the same boundary. Their stores may differ in every slot at or above the cursor. -/
structure State.Alike (s t : State) : Prop where
  cfg : s.cfg = t.cfg
  cursor : s.cursor = t.cursor
  buf : s.buf = t.buf
  counter : s.counter = t.counter
  pinEn : s.pinEn = t.pinEn
  stream : s.stream = t.stream
  responses : s.responses = t.responses
  pinTrace : s.pinTrace = t.pinTrace

/-- Two outcomes of the same kind: alike next states, or the same reason to stop. -/
def AlikeOutcomes : Host.Outcome State Fault Refusal → Host.Outcome State Fault Refusal → Prop
  | .next s, .next t => s.Alike t
  | .fault r, .fault q => r = q
  | .refused r, .refused q => r = q
  | _, _ => False

/-- `k` steps of the block, stopping at the first fault or refusal. -/
def runFor (k : Nat) (s : State) : Host.Outcome State Fault Refusal := Host.Core.run Sys2Proof.core k s

/-- The state with a program's inputs ahead of what its stream holds. -/
def State.withProgram (s : State) (is : List Instr) : State :=
  s.setStream (inputsOf .host is ++ s.stream)

/-- No duration is zero and the total is at most `2^W - 2`: the trains that are not malformed (R78). -/
def WellTimed (W : Nat) (buf : List Word) : Prop := 0#32 ∉ buf ∧ total buf ≤ 2 ^ W - 2

/-- The carrier levels a train should give tick by tick: each duration's number of ticks, marks and spaces in turn (R76,
R77). -/
def waveform : Bool → List Word → List Bool
  | _, [] => []
  | c, d :: ds => List.replicate d.toNat c ++ waveform (!c) ds

/-- The response of a TICK whose status is `Transmit(c)` (R50). -/
def transmitResponse (c : Bool) : Response := .word (if c then 0b11 else 0b10)

/-- `k` TICKs, the program `TICKS k` (R58). -/
def ticks (k : Nat) : List Instr := List.replicate k .tick

/-- The sum of the durations at even positions, the marks (R83). -/
def markTime : List Word → Nat
  | [] => 0
  | [d] => d.toNat
  | d :: _ :: ds => d.toNat + markTime ds

/-- The commands that may change the buffer while a train is in flight (R39). -/
def emptiesBuffer : Instr → Bool
  | .new => true
  | .reset => true
  | .load _ _ => false
  | .tick => false
  | .get _ => false
  | .len => false
  | .buffer => false

/-- Loads of the Pulse Buffer one after another, without a reset or a status gate between them (R70). -/
def pbLoadAll : List (Encoder × Cmd) → State → Host.Outcome State Fault Refusal
  | [], s => .next s
  | (e, cmd) :: rest, s =>
    match s.pbLoad e cmd with
    | .next t => pbLoadAll rest t
    | .fault r => .fault r
    | .refused r => .refused r

/-- An encoder that keeps the contract of R59. -/
def KeepsContract (e : Encoder) : Prop := e.report = .minimum

/-- A block in which nothing that waits can stop it: every encoder keeps its contract, and every pending command decodes to a
well-formed one (R99). -/
structure State.Lawful (s : State) : Prop where
  encoders : ∀ sel e, encoderAt s.cfg sel = some e → KeepsContract e
  pending : ∀ tx, .command tx ∈ s.stream → ∃ i, decode tx.word tx.sideband = .ok i ∧ i.wf s.cfg = true

end Sys2Proof.Machine
end

