-- ==== Sys2Proof/Certificates/Slice0/Obligations.lean ====
section
/-! DEFINITION. The statements made about the block, from the spec's numbered rules. -/

open Sys2Proof Sys2Proof.Machine

/-! ## Command words -/

/-- The words of 95_test_vectors.md section 2.1, one or more for each command and for each kind of reserved word. -/
def Obligations.ListedWordsDecodeAsListed : Prop :=
  decode 0x1000000000000000 [] = .ok .new ∧
  decode 0x2000000000000000 [3, 2, 1] = .ok (.load 0 [3, 2, 1]) ∧
  decode 0x2F00000000000000 [] = .ok (.load 15 []) ∧
  decode 0x3000000000000000 [] = .ok .tick ∧
  decode 0x4000000000000000 [] = .ok .reset ∧
  decode 0x5000000000000005 [] = .ok (.get 5) ∧
  decode 0x50000000FFFFFFFF [] = .ok (.get 4294967295) ∧
  decode 0x6000000000000000 [] = .ok .len ∧
  decode 0x7000000000000000 [] = .ok .buffer ∧
  decode 0x0000000000000000 [] = .error .opcode ∧
  decode 0x8000000000000000 [] = .error .opcode ∧
  decode 0xF000000000000000 [] = .error .opcode ∧
  decode 0x3000000000000001 [] = .error .field ∧
  decode 0x3100000000000000 [] = .error .field ∧
  decode 0x1000000100000000 [] = .error .field ∧
  decode 0x2000000000000001 [] = .error .field ∧
  decode 0x5100000000000003 [] = .error .field ∧
  decode 0x2080000000000000 [] = .error .field

/-- Every command, with every operand, comes back from its word and sideband (30_encoding.md sections 1 to 3). -/
def Obligations.DecodeOfEncodeGivesTheCommand : Prop :=
  ∀ i : Instr, decode (encode i) (sidebandOf i) = .ok i

/-- A command has one word: what decodes to it is its encoding, and a LOAD's sideband is passed on unchanged
(30_encoding.md sections 1 and 5). -/
def Obligations.DecodedWordIsTheEncoding : Prop :=
  ∀ (cw : Word64) (sideband : Cmd) (i : Instr), decode cw sideband = .ok i →
    encode i = cw ∧ ∀ sel cmd, i = .load sel cmd → cmd = sideband

/-- Where each field of the word stands, as numbers; the reserved bits are zero (30_encoding.md section 1). -/
def Obligations.EncodedWordHasItsFieldsInPlace : Prop :=
  (encode .new).toNat = 1 * 2 ^ 60 ∧
  (∀ sel cmd, (encode (.load sel cmd)).toNat = 2 * 2 ^ 60 + sel.toNat * 2 ^ 56) ∧
  (encode .tick).toNat = 3 * 2 ^ 60 ∧
  (encode .reset).toNat = 4 * 2 ^ 60 ∧
  (∀ index, (encode (.get index)).toNat = 5 * 2 ^ 60 + index.toNat) ∧
  (encode .len).toNat = 6 * 2 ^ 60 ∧
  (encode .buffer).toNat = 7 * 2 ^ 60

/-- The opcode table's match and mask columns select the same command as the decoder, for every word (opcode_table.json). -/
def Obligations.TableRowSelectsTheCommand : Prop :=
  ∀ (cw : Word64) (sideband : Cmd) (m : String),
    (∃ i, decode cw sideband = .ok i ∧ i.mnemonic = m) ↔ ∃ r ∈ opcodeTable, r.mnemonic = m ∧ r.holds cw = true

/-- R54 and R49: a command word is refused as reserved exactly if its `op` is `0x0` or `0x8` to `0xF`, a reserved bit is set,
`sel` is set outside LOAD or `arg` is set outside GET. -/
def Obligations.ReservedWordsAreRefused : Prop :=
  ∀ (s : State) (tx : Transaction) (rest : List Input), s.stream = .command tx :: rest →
    (step s = .refused .reservedCommand ↔
      tx.word.toNat / 2 ^ 60 = 0 ∨ 8 ≤ tx.word.toNat / 2 ^ 60 ∨
      tx.word.toNat / 2 ^ 32 % 2 ^ 24 ≠ 0 ∨
      (tx.word.toNat / 2 ^ 60 ≠ 2 ∧ tx.word.toNat / 2 ^ 56 % 2 ^ 4 ≠ 0) ∨
      (tx.word.toNat / 2 ^ 60 ≠ 5 ∧ tx.word.toNat % 2 ^ 32 ≠ 0))

/-! ## The step -/

/-- The step takes the oldest command of the stream and, if its word decodes, executes it in the state without that command
(42_commands.md section 1). -/
def Obligations.StepRunsTheDecodedCommand : Prop :=
  ∀ (s : State) (tx : Transaction) (rest : List Input) (i : Instr),
    s.stream = .command tx :: rest → decode tx.word tx.sideband = .ok i →
      step s = exec i { s with stream := rest }

/-- With no input pending the block waits: a step changes nothing. That a wait is a step is the model's choice (log 6). -/
def Obligations.StepWaitsWhileNothingIsPending : Prop :=
  ∀ s : State, s.stream = [] → step s = .next s

/-- NEW and the reset input leave the values of the reset table, and the configuration as built (70_reset_and_hazards.md section
1). That the reset input arrives between two commands, as an item of the stream, and leaves the inputs that wait behind it, is the
model's reading (log 7, DEDUCED). -/
def Obligations.NewAndResetInputLeaveTheResetState : Prop :=
  ∀ (s : State) (input : Input) (rest : List Input),
    (input = .resetInput ∨ ∃ tx, input = .command tx ∧ decode tx.word tx.sideband = .ok .new) →
    s.stream = input :: rest →
    ∃ t, step s = .next t ∧ t.cursor = 0 ∧ t.counter = 0 ∧ t.pinEn = false ∧
      t.pinTrace = s.pinTrace ++ [false] ∧ t.status = .idle ∧ t.cfg = s.cfg ∧ t.stream = rest ∧
      t.responses = s.responses

/-- The state after reset holds the values of R113's table, for a block of any configuration, and `W = 32` for the one that
`State.reset` is a state of. That nothing is listed in the store, that the stream and the responses are empty, is the model's
choice (log 6, log 8, log 9). -/
def Obligations.ResetStateHoldsTheResetValues : Prop :=
  (∀ cfg : Config, (State.resetWith cfg).cursor = 0 ∧ (State.resetWith cfg).counter = 0 ∧
    (State.resetWith cfg).pinEn = false ∧ (State.resetWith cfg).status = .idle ∧
    (State.resetWith cfg).cfg = cfg ∧ (State.resetWith cfg).storage = [] ∧ (State.resetWith cfg).stream = [] ∧
    (State.resetWith cfg).responses = []) ∧
  State.reset = State.resetWith State.reset.cfg ∧ State.reset.cfg.width = 32

/-- Inputs are taken in order, one a step, and none is put back (20_memory.md section 3). That the stream stands in State (log 5),
that a wait is a step (log 6), and that a reset input is an item of the stream that keeps the inputs behind it (log 7, DEDUCED), is
the model's choice. -/
def Obligations.StreamIsTakenInOrder : Prop :=
  ∀ s t : State, step s = .next t → t.stream = s.stream.tail

/-- R21: no command changes the capacity, the counter width or the encoder table. -/
def Obligations.NoStepChangesTheConfiguration : Prop :=
  ∀ s t : State, step s = .next t → t.cfg = s.cfg

/-- Every command is allowed to every issuer, and who issued it makes no difference (60_exceptions.md section 3). -/
def Obligations.IssuerMakesNoDifference : Prop :=
  ∀ (s : State) (tx : Transaction) (who : Issuer) (rest : List Input),
    step { s with stream := .command tx :: rest } = step { s with stream := .command { tx with issuer := who } :: rest }

/-! ## NEW and RESET -/

/-- R86: NEW in any state empties the buffer, sets `counter` to 0 and drives the pin low; it answers nothing, LEN then answers 0,
and a second NEW changes none of `cursor`, `counter` and `pin_en`. -/
def Obligations.NewEmptiesTheBlock : Prop :=
  ∀ s : State, ∃ t, exec .new s = .next t ∧ t.cursor = 0 ∧ t.counter = 0 ∧ t.pinEn = false ∧
    t.pinTrace = s.pinTrace ++ [false] ∧ t.responses = s.responses ∧ t.cfg = s.cfg ∧ t.stream = s.stream ∧
    t.status = .idle ∧
    exec .len t = .next { t with responses := t.responses ++ [.word 0] } ∧
    ∃ u, exec .new t = .next u ∧ u.cursor = t.cursor ∧ u.counter = t.counter ∧ u.pinEn = t.pinEn

/-- R91: RESET in any state writes `cursor` and nothing else; the status is then `Idle`, the next LOAD is accepted, the next TICK
returns `Idle` and drives the pin low, and on an empty buffer RESET changes nothing. -/
def Obligations.ResetDiscardsTheBuffer : Prop :=
  ∀ s : State, exec .reset s = .next { s with cursor := 0 } ∧
    (State.status { s with cursor := 0 }) = .idle ∧
    (∀ sel cmd e, encoderAt s.cfg sel = some e → KeepsContract e →
      ∃ t, exec (.load sel cmd) { s with cursor := 0 } = .next t ∧ t.counter = 0 ∧
        t.buf = (train e cmd).take s.cfg.capacity.toNat) ∧
    (∃ t, exec .tick { s with cursor := 0 } = .next t ∧ t.pinEn = false ∧ t.responses = s.responses ++ [.word 0]) ∧
    (s.cursor = 0 → exec .reset s = .next s)

/-! ## LOAD -/

/-- R87: a LOAD is refused exactly if its selector names no present entry, whatever the status and before any other effect. -/
def Obligations.LoadIsRefusedExactlyWithoutEncoder : Prop :=
  ∀ (s : State) (sel : BitVec 4) (cmd : Cmd),
    exec (.load sel cmd) s = .refused .noSuchEncoder ↔ s.cfg.encoders.get sel.toFin = none

/-- R103: a LOAD while the status is `Transmit(_)` or `Error` completes and changes nothing. -/
def Obligations.BusyLoadChangesNothing : Prop :=
  ∀ (s : State) (sel : BitVec 4) (cmd : Cmd) (e : Encoder), encoderAt s.cfg sel = some e →
    (s.status = .error ∨ ∃ c, s.status = .transmit c) → exec (.load sel cmd) s = .next s

/-- R68 and R69: a LOAD in the status `Idle` appends the prefix of the train that fits, `written = min(w, len(t))` durations,
writes no other slot, restarts the counter, and neither drives the pin nor answers. -/
def Obligations.IdleLoadAppendsThePrefixThatFits : Prop :=
  ∀ (s : State) (sel : BitVec 4) (cmd : Cmd) (e : Encoder),
    encoderAt s.cfg sel = some e → KeepsContract e → s.status = .idle →
    ∃ t, exec (.load sel cmd) s = .next t ∧
      t.cursor.toNat = s.cursor.toNat +
        min (s.cfg.capacity.toNat - s.cursor.toNat) (train e cmd).length ∧
      t.buf = s.buf ++ (train e cmd).take (s.cfg.capacity.toNat - s.cursor.toNat) ∧
      (∀ k, (hk : k < (train e cmd).length) → k < s.cfg.capacity.toNat - s.cursor.toNat →
        t.storage.read (s.cursor.toNat + k) = (train e cmd)[k]) ∧
      (∀ i, i < s.cursor.toNat ∨ t.cursor.toNat ≤ i → t.storage.read i = s.storage.read i) ∧
      t.counter = 0 ∧ t.pinEn = s.pinEn ∧ t.pinTrace = s.pinTrace ∧ t.responses = s.responses ∧
      t.cfg = s.cfg ∧ t.stream = s.stream

/-- R59: an encoder that keeps its contract writes `min(window, needed)` durations, the first ones of its train, and reports that
count. -/
def Obligations.EncoderWritesTheMinimum : Prop :=
  ∀ (e : Encoder) (cmd : Cmd) (w : Nat), KeepsContract e →
    reportedCount e cmd w = min w (train e cmd).length ∧ (encoded e cmd w).length = min w (train e cmd).length ∧
    ∀ k, (h : k < (encoded e cmd w).length) → (encoded e cmd w)[k]? = (train e cmd)[k]?

/-- A LOAD in the status `Idle`, whatever count its encoder reports: a count above the window faults; any other is at most
`min(w, len(t))`, and so many of the train's first durations are appended and nothing else is written (40_encoder_buffer.md section
1, 93_implementation_defined.md U7 and U8). That encoders which break their contract are admitted is the model's choice (log 4). -/
def Obligations.IdleLoadAppendsTheReportOrFaults : Prop :=
  ∀ (s : State) (sel : BitVec 4) (cmd : Cmd) (e : Encoder), encoderAt s.cfg sel = some e → s.status = .idle →
    (s.cfg.capacity.toNat - s.cursor.toNat < reportedCount e cmd s.window →
      exec (.load sel cmd) s = .fault .encoderOverrun) ∧
    (reportedCount e cmd s.window ≤ s.cfg.capacity.toNat - s.cursor.toNat →
      reportedCount e cmd s.window ≤ min (s.cfg.capacity.toNat - s.cursor.toNat) (train e cmd).length ∧
      ∃ t, exec (.load sel cmd) s = .next t ∧
        t.buf = s.buf ++ (train e cmd).take (reportedCount e cmd s.window) ∧
        t.cursor.toNat = s.cursor.toNat + reportedCount e cmd s.window ∧ t.counter = 0 ∧
        (∀ i, i < s.cursor.toNat ∨ t.cursor.toNat ≤ i → t.storage.read i = s.storage.read i) ∧
        t.pinEn = s.pinEn ∧ t.pinTrace = s.pinTrace ∧ t.responses = s.responses ∧ t.cfg = s.cfg ∧
        t.stream = s.stream)

/-- Two LOADs of one entry and one command value present the same train, in whatever states, and of blocks whatever else they hold:
what one appends is a prefix of what the other does (40_encoder_buffer.md section 1). That encoders which break their contract are
admitted, with a free count and no free train, is the model's choice (log 4). -/
def Obligations.EqualLoadsPresentTheSameTrain : Prop :=
  ∀ (s s' t t' : State) (sel sel' : BitVec 4) (cmd : Cmd) (e : Encoder),
    encoderAt s.cfg sel = some e → encoderAt s'.cfg sel' = some e → s.status = .idle → s'.status = .idle →
    exec (.load sel cmd) s = .next t → exec (.load sel' cmd) s' = .next t' →
    ∃ written written', t.buf = s.buf ++ written ∧ t'.buf = s'.buf ++ written' ∧
      (written <+: written' ∨ written' <+: written)

/-- Any number of buffer-level loads within capacity leaves the old durations and then every train in order
(40_encoder_buffer.md section 2). -/
def Obligations.LoadsWithinCapacityConcatenate : Prop :=
  ∀ (loads : List (Encoder × Cmd)) (s : State), (∀ p ∈ loads, KeepsContract p.1) →
    (loads.map fun p => (train p.1 p.2).length).sum ≤ s.cfg.capacity.toNat - s.cursor.toNat →
    ∃ t, pbLoadAll loads s = .next t ∧ t.buf = s.buf ++ loads.flatMap (fun p => train p.1 p.2) ∧
      t.cursor.toNat = s.cursor.toNat + (loads.map fun p => (train p.1 p.2).length).sum ∧
      t.counter = s.counter ∧ t.pinEn = s.pinEn ∧ t.responses = s.responses

/-! ## TICK and the pin -/

/-- R89: TICK advances the counter with wrap, drives the pin from the status at the new counter, answers that status and changes
nothing else. -/
def Obligations.TickAdvancesAndReports : Prop :=
  ∀ s : State, exec .tick s = .next
    { s with
      counter := (s.counter + 1) % 2 ^ s.cfg.width
      pinEn := decide (status s.cfg.width s.buf ((s.counter + 1) % 2 ^ s.cfg.width) = .transmit true)
      pinTrace := s.pinTrace ++
        [decide (status s.cfg.width s.buf ((s.counter + 1) % 2 ^ s.cfg.width) = .transmit true)]
      responses := s.responses ++
        [.word (statusCode (status s.cfg.width s.buf ((s.counter + 1) % 2 ^ s.cfg.width)))] }

/-- R50: the code of TICK's response names the status, its upper bits are zero, and the pin level is `rw[1] AND rw[0]`. -/
def Obligations.TickResponseCodesTheStatus : Prop :=
  ∀ s : State, ∃ t rw, exec .tick s = .next t ∧ t.responses = s.responses ++ [.word rw] ∧
    (t.status = .idle ↔ rw.toNat = 0) ∧ (t.status = .error ↔ rw.toNat = 1) ∧
    (t.status = .transmit false ↔ rw.toNat = 2) ∧ (t.status = .transmit true ↔ rw.toNat = 3) ∧
    rw.toNat / 4 = 0 ∧ t.pinEn = (rw.getLsbD 1 && rw.getLsbD 0)

/-- R90: TICK drives the pin once, high exactly for `Transmit(true)`; NEW drives it low once; no other command calls it. -/
def Obligations.OnlyTickAndNewDriveThePin : Prop :=
  ∀ (i : Instr) (s t : State), exec i s = .next t →
    (i = .tick → (t.pinEn = true ↔ t.status = .transmit true) ∧ t.pinTrace = s.pinTrace ++ [t.pinEn]) ∧
    (i = .new → t.pinEn = false ∧ t.pinTrace = s.pinTrace ++ [false]) ∧
    (i ≠ .tick → i ≠ .new → t.pinEn = s.pinEn ∧ t.pinTrace = s.pinTrace)

/-- TICK advances the counter modulo `2^W`, an accepted LOAD and NEW set it to 0, no other command touches it (10_state.md
section 1). -/
def Obligations.CounterIsWrittenAsListed : Prop :=
  ∀ (i : Instr) (s t : State), exec i s = .next t →
    (i = .tick → t.counter = (s.counter + 1) % 2 ^ s.cfg.width) ∧
    (i = .new → t.counter = 0) ∧
    (∀ sel cmd, i = .load sel cmd →
      (s.status = .idle → t.counter = 0) ∧ (s.status ≠ .idle → t.counter = s.counter)) ∧
    (i = .reset ∨ i = .len ∨ i = .buffer ∨ (∃ index, i = .get index) → t.counter = s.counter)

/-! ## GET, LEN and BUFFER -/

/-- R92, R65 and R51: GET answers the valid bit and the duration below the cursor, 0 at and above it, and changes nothing. -/
def Obligations.GetAnswersTheDurationOrNone : Prop :=
  ∀ (s : State) (index : Word), ∃ rw : Word64,
    exec (.get index) s = .next { s with responses := s.responses ++ [.word rw] } ∧
    (index.toNat < s.cursor.toNat → rw.toNat = 2 ^ 32 + (s.storage.read index.toNat).toNat) ∧
    (s.cursor.toNat ≤ index.toNat → rw.toNat = 0)

/-- R93 and R52: LEN answers the cursor, zero-extended, and changes nothing. -/
def Obligations.LenAnswersTheCursor : Prop :=
  ∀ s : State, ∃ rw : Word64,
    exec .len s = .next { s with responses := s.responses ++ [.word rw] } ∧ rw.toNat = s.cursor.toNat

/-- R94, R53 and R66: BUFFER answers the `cursor` valid durations in index order and changes nothing. -/
def Obligations.BufferAnswersTheValidDurations : Prop :=
  ∀ s : State, ∃ ws : List Word,
    exec .buffer s = .next { s with responses := s.responses ++ [.list ws] } ∧
    ws.length = s.cursor.toNat ∧ ∀ k, (h : k < ws.length) → ws[k] = s.storage.read k

/-- A LOAD's durations are what a GET after it answers, and after a RESET, in any state, GET answers `None` for every index
(20_memory.md section 3). -/
def Obligations.GetReadsWhatLoadWrote : Prop :=
  (∀ (s t : State) (sel : BitVec 4) (cmd : Cmd) (e : Encoder) (k : Nat) (index : Word),
    encoderAt s.cfg sel = some e → KeepsContract e → s.status = .idle → exec (.load sel cmd) s = .next t →
    index.toNat = s.cursor.toNat + k → k < s.cfg.capacity.toNat - s.cursor.toNat →
    (h : k < (train e cmd).length) →
    exec (.get index) t = .next { t with responses := t.responses ++ [.word (1#32 ++ (train e cmd)[k])] }) ∧
  ∀ s : State, ∃ u, exec .reset s = .next u ∧
    ∀ index, exec (.get index) u = .next { u with responses := u.responses ++ [.word 0] }

/-! ## The status -/

/-- R74 and R82: the status of a buffer at an elapsed value, its checks in their order, the segment as the least `k` with
`e <= B(k+1)`. -/
def Obligations.StatusFollowsTheRule : Prop :=
  ∀ (W : Nat) (buf : List Word) (e : Nat),
    (buf = [] → status W buf e = .idle) ∧
    (buf ≠ [] → (∃ d ∈ buf, d.toNat = 0) ∨ 2 ^ W - 2 < (buf.map BitVec.toNat).sum → status W buf e = .error) ∧
    (buf ≠ [] → (∀ d ∈ buf, d.toNat ≠ 0) → (buf.map BitVec.toNat).sum ≤ 2 ^ W - 2 →
      ((buf.map BitVec.toNat).sum < e → status W buf e = .idle) ∧
      (∀ i, i < buf.length → e ≤ ((buf.take (i + 1)).map BitVec.toNat).sum →
        (∀ k, k < i → ((buf.take (k + 1)).map BitVec.toNat).sum < e) →
        status W buf e = .transmit (i % 2 == 0)))

/-- R78: `Error` exactly for a nonempty buffer with a zero duration or a total above `2^W - 2`, at every elapsed value; and no
TICK enables the pin for it. -/
def Obligations.ErrorExactlyForMalformedTrains : Prop :=
  (∀ (W : Nat) (buf : List Word) (e : Nat),
    status W buf e = .error ↔ buf ≠ [] ∧ ((∃ d ∈ buf, d.toNat = 0) ∨ 2 ^ W - 2 < (buf.map BitVec.toNat).sum)) ∧
  ∀ s : State, s.buf ≠ [] → ((∃ d ∈ s.buf, d.toNat = 0) ∨ 2 ^ s.cfg.width - 2 < (s.buf.map BitVec.toNat).sum) →
    ∃ t, exec .tick s = .next t ∧ t.status = .error ∧ t.pinEn = false

/-- `Idle` exactly for an empty buffer, or for one that is not malformed with the elapsed value past its total
(41_pulse_sender.md section 3). -/
def Obligations.IdleExactlyWhenEmptyOrPastTheEnd : Prop :=
  ∀ (W : Nat) (buf : List Word) (e : Nat),
    status W buf e = .idle ↔ buf = [] ∨ (WellTimed W buf ∧ total buf < e)

/-- Segment `i` holds exactly the elapsed values after `B(i)` up to `B(i+1)`, and 0 lies in segment 0; even segments are marks
(41_pulse_sender.md section 2). -/
def Obligations.SegmentGivesItsParity : Prop :=
  ∀ (W : Nat) (buf : List Word) (e i : Nat), WellTimed W buf → i < buf.length →
    boundary buf i < e ∨ (e = 0 ∧ i = 0) → e ≤ boundary buf (i + 1) →
    status W buf e = .transmit (i % 2 == 0)

/-- R84: with a well-timed train, the elapsed values 0 to `buf[0]` are a mark, the rest follows the segments, and the TICK that
wraps the counter to 0 answers `Transmit(true)` and drives the pin high. -/
def Obligations.WrapToZeroIsTheFirstMark : Prop :=
  (∀ (W : Nat) (d : Word) (ds : List Word) (e : Nat), WellTimed W (d :: ds) →
    (e ≤ d.toNat → status W (d :: ds) e = .transmit true) ∧
    ∀ i, i < ds.length → boundary (d :: ds) (i + 1) < e → e ≤ boundary (d :: ds) (i + 2) →
      status W (d :: ds) e = .transmit (i % 2 == 1)) ∧
  ∀ s : State, s.buf ≠ [] → WellTimed s.cfg.width s.buf → s.counter + 1 = 2 ^ s.cfg.width →
    ∃ t, exec .tick s = .next t ∧ t.counter = 0 ∧ t.pinEn = true ∧ t.responses = s.responses ++ [.word 3]

/-! ## Runs -/

/-- `k` TICKs advance the counter by `k` modulo `2^W` and leave the buffer alone (10_state.md section 1). -/
def Obligations.TicksAdvanceTheCounter : Prop :=
  ∀ (k : Nat) (s : State), s.counter < 2 ^ s.cfg.width →
    ∃ t, runFor k (s.withProgram (ticks k)) = .next t ∧ t.counter = (s.counter + k) % 2 ^ s.cfg.width ∧
      t.cursor = s.cursor ∧ t.storage = s.storage ∧ t.stream = s.stream ∧ t.responses.length = s.responses.length + k ∧
      t.pinTrace.length = s.pinTrace.length + k

/-- A train loaded into an empty buffer is sent segment by segment: after the LOAD, as many TICKs as its total answer and drive
exactly its marks and spaces, each for its duration (41_pulse_sender.md sections 2 and 3). -/
def Obligations.LoadedTrainIsSentSegmentBySegment : Prop :=
  ∀ (s : State) (sel : BitVec 4) (cmd : Cmd) (e : Encoder) (buf : List Word),
    encoderAt s.cfg sel = some e → KeepsContract e → s.cursor = 0 →
    buf = (train e cmd).take s.cfg.capacity.toNat → buf ≠ [] → WellTimed s.cfg.width buf →
    ∃ t, runFor (1 + total buf) (s.withProgram (.load sel cmd :: ticks (total buf))) = .next t ∧
      t.responses = s.responses ++ (waveform true buf).map transmitResponse ∧
      t.pinTrace = s.pinTrace ++ waveform true buf ∧
      t.counter = total buf ∧ t.buf = buf ∧ t.stream = s.stream

/-- Of the TICKs that send a train, exactly as many drive the pin high as its marks last (41_pulse_sender.md section 3). -/
def Obligations.PinIsHighForExactlyTheMarks : Prop :=
  ∀ s : State, s.buf ≠ [] → WellTimed s.cfg.width s.buf → s.counter = 0 →
    ∃ t levels, runFor (total s.buf) (s.withProgram (ticks (total s.buf))) = .next t ∧
      t.pinTrace = s.pinTrace ++ levels ∧ levels.length = total s.buf ∧ levels.count true = markTime s.buf

/-- A well-timed train ends: once the TICKs carry the counter past its total, and until it wraps, the status is `Idle` and the
pin is low (41_pulse_sender.md section 3). -/
def Obligations.TrainEndsAndStaysIdle : Prop :=
  ∀ (k : Nat) (s : State), s.buf ≠ [] → WellTimed s.cfg.width s.buf → 0 < k → total s.buf < s.counter + k →
    s.counter + k < 2 ^ s.cfg.width →
    ∃ t, runFor k (s.withProgram (ticks k)) = .next t ∧ t.counter = s.counter + k ∧ t.buf = s.buf ∧
      t.status = .idle ∧ t.pinEn = false

/-- After a finished train, every TICK answers `Idle` until the counter wraps, and the one that wraps it answers
`Transmit(true)`: the train starts again (70_reset_and_hazards.md section 3). -/
def Obligations.CounterWrapReplaysTheTrain : Prop :=
  ∀ (s : State) (k : Nat), s.buf ≠ [] → WellTimed s.cfg.width s.buf → total s.buf ≤ s.counter →
    s.counter + k + 1 = 2 ^ s.cfg.width →
    ∃ t, runFor (k + 1) (s.withProgram (ticks (k + 1))) = .next t ∧
      t.responses = s.responses ++ List.replicate k (.word 0) ++ [.word 3] ∧
      t.pinTrace = s.pinTrace ++ List.replicate k false ++ [true] ∧ t.counter = 0 ∧ t.buf = s.buf

/-- `Error` is left by NEW and RESET only: any other command that completes leaves the status `Error` and the buffer as it was
(60_exceptions.md section 2). -/
def Obligations.ErrorIsLeftOnlyByNewOrReset : Prop :=
  ∀ (i : Instr) (s t : State), s.status = .error → exec i s = .next t → emptiesBuffer i = false →
    t.status = .error ∧ t.buf = s.buf

/-- While a train is in flight only NEW and RESET change the buffer (20_memory.md section 3). -/
def Obligations.OnlyNewAndResetChangeABusyBuffer : Prop :=
  ∀ (i : Instr) (s t : State), s.status ≠ .idle → exec i s = .next t → emptiesBuffer i = false →
    t.buf = s.buf ∧ t.cursor = s.cursor ∧ t.storage = s.storage

/-- After an accepted LOAD that leaves durations in the buffer, a second LOAD before any TICK is ignored
(70_reset_and_hazards.md section 3). -/
def Obligations.SecondLoadBeforeATickIsIgnored : Prop :=
  ∀ (s t : State) (sel sel' : BitVec 4) (cmd cmd' : Cmd) (e' : Encoder),
    s.status = .idle → exec (.load sel cmd) s = .next t → t.buf ≠ [] → encoderAt s.cfg sel' = some e' →
    exec (.load sel' cmd') t = .next t

/-- At the last tick of a train a LOAD before the TICK is ignored and a LOAD after it is taken: it appends to the finished train
(70_reset_and_hazards.md section 3). -/
def Obligations.LoadAtTheEndDependsOnTheOrder : Prop :=
  ∀ (s : State) (sel : BitVec 4) (cmd : Cmd) (e : Encoder), encoderAt s.cfg sel = some e → KeepsContract e →
    s.buf ≠ [] → WellTimed s.cfg.width s.buf → s.counter = total s.buf →
    exec (.load sel cmd) s = .next s ∧
    ∃ t u, exec .tick s = .next t ∧ t.status = .idle ∧ exec (.load sel cmd) t = .next u ∧
      u.buf = s.buf ++ (train e cmd).take (s.cfg.capacity.toNat - s.cursor.toNat) ∧ u.counter = 0

/-- What the three pseudo-commands expand to (30_encoding.md section 6). -/
def Obligations.PseudoCommandsExpandAsListed : Prop :=
  expand .abort = [.reset, .tick] ∧
  (∀ sel cmd, expand (.reload sel cmd) = .reset :: expand (.load sel cmd)) ∧
  ∀ n, (expand (.ticks n)).length = n ∧ ∀ i ∈ expand (.ticks n), i = .tick

/-- ABORT in any state stops the train and drives the pin low (60_exceptions.md section 2, 70_reset_and_hazards.md section 3). -/
def Obligations.AbortDrivesThePinLow : Prop :=
  ∀ s : State, ∃ t, runFor 2 (s.withProgram (expand .abort)) = .next t ∧ t.cursor = 0 ∧ t.pinEn = false ∧
    t.status = .idle ∧ t.counter = (s.counter + 1) % 2 ^ s.cfg.width ∧ t.responses = s.responses ++ [.word 0] ∧
    t.stream = s.stream

/-- RELOAD in any state, `Error` included, leaves exactly the prefix of the new train that fits (60_exceptions.md section 2). -/
def Obligations.ReloadIsAlwaysAccepted : Prop :=
  ∀ (s : State) (n : Nat) (ds : List Nat) (e : Encoder), (Line.reload n ds).wf = true →
    encoderAt s.cfg (BitVec.ofNat 4 n) = some e → KeepsContract e →
    ∃ t, runFor 2 (s.withProgram (expand (.reload n ds))) = .next t ∧
      t.buf = (train e (ds.map (BitVec.ofNat 32))).take s.cfg.capacity.toNat ∧ t.counter = 0 ∧
      t.pinEn = s.pinEn ∧ t.responses = s.responses ∧ t.stream = s.stream

/-! ## The whole machine -/

/-- What each command leaves unchanged, all of the summary table's "unchanged" entries (42_commands.md section 3): a LOAD while the
status is not `Idle` leaves all of it, and one in the status `Idle` writes the slots from the old cursor up to the new one and no
other. -/
def Obligations.EveryCommandKeepsWhatItDoesNotWrite : Prop :=
  ∀ (i : Instr) (s t : State), exec i s = .next t →
    t.cfg = s.cfg ∧ t.stream = s.stream ∧
    (i = .new ∨ i = .reset ∨ ((∃ sel cmd, i = .load sel cmd) ∧ s.status = .idle) ∨ t.cursor = s.cursor) ∧
    (∀ sel cmd e, i = .load sel cmd → encoderAt s.cfg sel = some e → s.status = .idle →
      t.cursor.toNat = s.cursor.toNat + (encoded e cmd s.window).length) ∧
    (i = .new ∨ ∀ k,
      ((∃ sel cmd, i = .load sel cmd) ∧ s.status = .idle ∧ s.cursor.toNat ≤ k ∧ k < t.cursor.toNat) ∨
      t.storage.read k = s.storage.read k) ∧
    (i = .new ∨ i = .tick ∨ ((∃ sel cmd, i = .load sel cmd) ∧ s.status = .idle) ∨ t.counter = s.counter) ∧
    (i = .new ∨ i = .tick ∨ t.pinEn = s.pinEn ∧ t.pinTrace = s.pinTrace) ∧
    (i = .tick ∨ i = .len ∨ i = .buffer ∨ (∃ index, i = .get index) ∨ t.responses = s.responses)

/-- The commands that stop, each exactly when the error table says (60_exceptions.md section 1): no command but LOAD stops. -/
def Obligations.StopsAreExactlyTheNamedOnes : Prop :=
  ∀ (i : Instr) (s : State),
    (∀ r, exec i s = .refused r ↔
      r = .noSuchEncoder ∧ ∃ sel cmd, i = .load sel cmd ∧ encoderAt s.cfg sel = none) ∧
    (∀ r, exec i s = .fault r ↔
      r = .encoderOverrun ∧ ∃ sel cmd e, i = .load sel cmd ∧ encoderAt s.cfg sel = some e ∧ s.status = .idle ∧
        s.window < reportedCount e cmd s.window)

/-- A run never stops if every encoder of the block keeps its contract and every pending command decodes to a well-formed one
(60_exceptions.md section 1: "No operation in this core is permitted to abort the whole process"). -/
def Obligations.LawfulRunNeverStops : Prop :=
  ∀ (k : Nat) (s : State), s.Lawful → ∃ t, runFor k s = .next t

/-- The step form of that claim: from a state in which every encoder keeps its contract and every pending command decodes to a
well-formed one, a step answers a next state, and that state is such a state again (60_exceptions.md section 1). -/
def Obligations.LawfulStepGoesOnLawfully : Prop :=
  ∀ s : State, s.Lawful → ∃ t, step s = .next t ∧ t.Lawful

/-- Every step keeps the invariant of reachable states: the cursor within capacity, the store canonical, within capacity and
defined below the cursor, the counter a `W`-bit value, and the pin at the level last written (10_state.md sections 1 and 2). -/
def Obligations.EveryStepKeepsTheInvariant : Prop :=
  ∀ s t : State, s.Inv → step s = .next t → t.Inv

/-- The state after reset meets the invariant, for every legal configuration, and so does `State.reset` (70_reset_and_hazards.md
section 1). -/
def Obligations.ResetMeetsTheInvariant : Prop :=
  (∀ cfg : Config, cfg.wf = true → (State.resetWith cfg).Inv) ∧ State.reset.Inv

/-- Two states equal in `cursor`, `storage[0..cursor)`, `counter` and `pin_en` answer every command sequence alike, whatever
their stale slots hold (10_state.md section 3). -/
def Obligations.AlikeStatesAnswerAlike : Prop :=
  ∀ (k : Nat) (s t : State), s.Alike t → AlikeOutcomes (runFor k s) (runFor k t)
end

