-- ==== Sys2Proof/Laws/Decode.lean ====
section
/-! SUPPORT. The fields of a command word as numbers, the round trips of its fields, and the opcode table's rows. -/

namespace Sys2Proof

/-- No word belongs to two rows of the opcode table: two rows differ in a bit that both of them fix. -/
theorem opcodeTable_rows_disjoint :
    opcodeTable.Pairwise fun r q => (r.value ^^^ q.value) &&& (r.mask &&& q.mask) ≠ 0 := by
  decide

/-- A row fixes no bit outside its mask. -/
theorem opcodeTable_values_masked : ∀ r ∈ opcodeTable, r.value &&& r.mask = r.value := by
  decide

theorem opField_toNat (cw : Word64) : (opField cw).toNat = cw.toNat / 2 ^ 60 := by
  have := cw.isLt
  simp only [opField, BitVec.extractLsb'_toNat, Nat.shiftRight_eq_div_pow]
  omega

theorem selField_toNat (cw : Word64) : (selField cw).toNat = cw.toNat / 2 ^ 56 % 16 := by
  simp only [selField, BitVec.extractLsb'_toNat, Nat.shiftRight_eq_div_pow]

theorem reservedField_toNat (cw : Word64) : (reservedField cw).toNat = cw.toNat / 2 ^ 32 % 2 ^ 24 := by
  simp only [reservedField, BitVec.extractLsb'_toNat, Nat.shiftRight_eq_div_pow]

theorem argField_toNat (cw : Word64) : (argField cw).toNat = cw.toNat % 2 ^ 32 := by
  simp only [argField, BitVec.extractLsb'_toNat, Nat.shiftRight_zero]

theorem append_toNat {n m : Nat} (x : BitVec n) (y : BitVec m) :
    (x ++ y).toNat = x.toNat * 2 ^ m + y.toNat := by
  rw [BitVec.toNat_append, ← Nat.shiftLeft_add_eq_or_of_lt y.isLt, Nat.shiftLeft_eq]

/-- The word `{op, sel, 24'b0, arg}` as a number. -/
theorem commandWord_toNat (op sel : BitVec 4) (arg : Word) :
    (commandWord op sel arg).toNat = op.toNat * 2 ^ 60 + sel.toNat * 2 ^ 56 + arg.toNat := by
  have h : (commandWord op sel arg).toNat = (op ++ sel ++ 0#24 ++ arg).toNat := rfl
  rw [h, append_toNat, append_toNat, append_toNat]
  simp only [BitVec.toNat_ofNat]
  omega

theorem opField_commandWord (op sel : BitVec 4) (arg : Word) : opField (commandWord op sel arg) = op := by
  apply BitVec.eq_of_toNat_eq
  have h1 := op.isLt; have h2 := sel.isLt; have h3 := arg.isLt
  rw [opField_toNat, commandWord_toNat]
  omega

theorem selField_commandWord (op sel : BitVec 4) (arg : Word) : selField (commandWord op sel arg) = sel := by
  apply BitVec.eq_of_toNat_eq
  have h1 := op.isLt; have h2 := sel.isLt; have h3 := arg.isLt
  rw [selField_toNat, commandWord_toNat]
  omega

theorem reservedField_commandWord (op sel : BitVec 4) (arg : Word) :
    reservedField (commandWord op sel arg) = 0 := by
  apply BitVec.eq_of_toNat_eq
  have h1 := op.isLt; have h2 := sel.isLt; have h3 := arg.isLt
  rw [reservedField_toNat, commandWord_toNat]
  simp only [BitVec.ofNat_eq_ofNat, BitVec.toNat_ofNat]
  omega

theorem argField_commandWord (op sel : BitVec 4) (arg : Word) : argField (commandWord op sel arg) = arg := by
  apply BitVec.eq_of_toNat_eq
  have h1 := op.isLt; have h2 := sel.isLt; have h3 := arg.isLt
  rw [argField_toNat, commandWord_toNat]
  omega

/-- A word whose reserved field is zero is its other fields put together (R44). -/
theorem commandWord_of_fields (cw : Word64) (h : reservedField cw = 0) :
    commandWord (opField cw) (selField cw) (argField cw) = cw := by
  apply BitVec.eq_of_toNat_eq
  have hr := congrArg BitVec.toNat h
  rw [reservedField_toNat] at hr
  simp only [BitVec.ofNat_eq_ofNat, BitVec.toNat_ofNat] at hr
  rw [commandWord_toNat, opField_toNat, selField_toNat, argField_toNat]
  have := cw.isLt
  omega

theorem zerosHold_eq (usesSel usesArg : Bool) (cw : Word64) :
    zerosHold usesSel usesArg cw = true ↔
      reservedField cw = 0 ∧ (usesSel = true ∨ selField cw = 0) ∧ (usesArg = true ∨ argField cw = 0) := by
  simp [zerosHold, and_assoc]

/-- A checked word gives its command exactly if the zero checks hold. -/
theorem checked_ok {usesSel usesArg : Bool} {cw : Word64} {i j : Instr} :
    checked usesSel usesArg cw i = .ok j ↔ zerosHold usesSel usesArg cw = true ∧ i = j := by
  unfold checked
  split <;> simp [*]

/-- The commands a word can be decoded to, each with its opcode and its zero checks. -/
theorem decode_ok_cases {cw : Word64} {sideband : Cmd} {i : Instr} (h : decode cw sideband = .ok i) :
    ((opField cw).toNat = 1 ∧ zerosHold false false cw = true ∧ i = .new) ∨
    ((opField cw).toNat = 2 ∧ zerosHold true false cw = true ∧ i = .load (selField cw) sideband) ∨
    ((opField cw).toNat = 3 ∧ zerosHold false false cw = true ∧ i = .tick) ∨
    ((opField cw).toNat = 4 ∧ zerosHold false false cw = true ∧ i = .reset) ∨
    ((opField cw).toNat = 5 ∧ zerosHold false true cw = true ∧ i = .get (argField cw)) ∨
    ((opField cw).toNat = 6 ∧ zerosHold false false cw = true ∧ i = .len) ∨
    ((opField cw).toNat = 7 ∧ zerosHold false false cw = true ∧ i = .buffer) := by
  unfold decode at h
  split at h <;> first
    | (obtain ⟨hz, rfl⟩ := checked_ok.mp h; simp [*])
    | simp at h

end Sys2Proof
end

