-- ==== Sys2Proof/Laws/Memory.lean ====
section
/-! SUPPORT. The duration store: a read after a write, and the canonical form (R33, R16). -/

namespace Sys2Proof.Machine

theorem Memory.lookup_write_same (m : Memory) (i : Nat) (v : Word) : (m.write i v).lookup i = some v := by
  induction m with
  | nil => simp [Memory.write, Memory.lookup]
  | cons c m ih =>
    obtain ⟨k, x⟩ := c
    rw [Memory.write]
    split
    · simp [Memory.lookup]
    split
    · simp [Memory.lookup]
    · rename_i h
      simp [Memory.lookup, h, ih]

theorem Memory.lookup_write_other (m : Memory) {i j : Nat} (v : Word) (h : j ≠ i) :
    (m.write i v).lookup j = m.lookup j := by
  induction m with
  | nil => simp [Memory.write, Memory.lookup, h]
  | cons c m ih =>
    obtain ⟨k, x⟩ := c
    rw [Memory.write]
    split
    · simp [Memory.lookup, h]
    split
    · rename_i hk
      subst hk
      simp [Memory.lookup, h]
    · simp [Memory.lookup, ih]

theorem Memory.read_write_same (m : Memory) (i : Nat) (v : Word) : (m.write i v).read i = v := by
  simp [Memory.read, Memory.lookup_write_same]

theorem Memory.read_write_other (m : Memory) {i j : Nat} (v : Word) (h : j ≠ i) :
    (m.write i v).read j = m.read j := by
  simp [Memory.read, Memory.lookup_write_other m v h]

/-- A write lists the slot written and no other new one. -/
theorem Memory.mem_keys_write (m : Memory) (i : Nat) (v : Word) (k : Nat) :
    k ∈ (m.write i v).map Prod.fst ↔ k = i ∨ k ∈ m.map Prod.fst := by
  induction m with
  | nil => simp [Memory.write]
  | cons c m ih =>
    obtain ⟨a, x⟩ := c
    rw [Memory.write]
    split
    · simp
    split
    · rename_i h
      subst h
      simp
    · rw [List.map_cons, List.mem_cons, ih, List.map_cons, List.mem_cons]
      tauto

/-- A write keeps the canonical form. -/
theorem Memory.write_wf {m : Memory} (h : Memory.wf m) (i : Nat) (v : Word) : Memory.wf (m.write i v) := by
  induction m with
  | nil => simp [Memory.write, Memory.wf]
  | cons c m ih =>
    obtain ⟨a, x⟩ := c
    obtain ⟨hlt, htail⟩ := List.pairwise_cons.mp h
    rw [Memory.write]
    split
    · rename_i hi
      refine List.pairwise_cons.mpr ⟨fun k hk => ?_, h⟩
      rcases List.mem_cons.mp hk with rfl | hk
      · exact hi
      · exact lt_trans hi (hlt k hk)
    split
    · rename_i hi
      subst hi
      exact List.pairwise_cons.mpr ⟨hlt, htail⟩
    · rename_i h1 h2
      refine List.pairwise_cons.mpr ⟨fun k hk => ?_, ih htail⟩
      rcases (Memory.mem_keys_write m i v k).mp hk with rfl | hk
      · exact lt_of_le_of_ne (Nat.le_of_not_lt h1) (Ne.symm h2)
      · exact hlt k hk

/-- A run of writes keeps the canonical form. -/
theorem Memory.writeAll_wf {m : Memory} (h : Memory.wf m) (i : Nat) (ds : List Word) :
    Memory.wf (m.writeAll i ds) := by
  induction ds generalizing m i with
  | nil => exact h
  | cons d ds ih => exact ih (Memory.write_wf h i d) (i + 1)

/-- A slot below the run keeps its value. -/
theorem Memory.lookup_writeAll_below (m : Memory) {i j : Nat} (ds : List Word) (h : j < i) :
    (m.writeAll i ds).lookup j = m.lookup j := by
  induction ds generalizing m i with
  | nil => rfl
  | cons d ds ih =>
    rw [Memory.writeAll, ih _ (Nat.lt_succ_of_lt h), Memory.lookup_write_other m d (Nat.ne_of_lt h)]

/-- A slot above the run keeps its value. -/
theorem Memory.lookup_writeAll_above (m : Memory) {i j : Nat} (ds : List Word) (h : i + ds.length ≤ j) :
    (m.writeAll i ds).lookup j = m.lookup j := by
  induction ds generalizing m i with
  | nil => rfl
  | cons d ds ih =>
    have hj : i + 1 + ds.length ≤ j := by simpa [Nat.add_assoc, Nat.add_comm 1] using h
    rw [Memory.writeAll, ih _ hj, Memory.lookup_write_other m d (by omega)]

/-- The run's own slots hold the durations in order. -/
theorem Memory.lookup_writeAll_inside (m : Memory) (i : Nat) (ds : List Word) {k : Nat} (h : k < ds.length) :
    (m.writeAll i ds).lookup (i + k) = some ds[k] := by
  induction ds generalizing m i k with
  | nil => simp at h
  | cons d ds ih =>
    cases k with
    | zero =>
      show ((m.write i d).writeAll (i + 1) ds).lookup i = some d
      rw [Memory.lookup_writeAll_below _ _ (Nat.lt_succ_self i), Memory.lookup_write_same]
    | succ k =>
      rw [Memory.writeAll, show i + (k + 1) = i + 1 + k by omega, ih _ _ (by simpa using h)]
      rfl

/-- What a run of writes lists: what was listed, and its own slots. -/
theorem Memory.mem_keys_writeAll (m : Memory) (i : Nat) (ds : List Word) (k : Nat) :
    k ∈ (m.writeAll i ds).map Prod.fst ↔ k ∈ m.map Prod.fst ∨ i ≤ k ∧ k < i + ds.length := by
  induction ds generalizing m i with
  | nil =>
    refine ⟨.inl, ?_⟩
    rintro (h | h)
    · exact h
    · exact absurd h.2 (by simpa using h.1)
  | cons d ds ih =>
    rw [Memory.writeAll, ih, Memory.mem_keys_write, List.length_cons]
    constructor
    · rintro ((rfl | h) | h)
      · right; omega
      · exact .inl h
      · right; omega
    · rintro (h | h)
      · exact .inl (.inr h)
      · rcases Nat.eq_or_lt_of_le h.1 with rfl | hlt
        · exact .inl (.inl rfl)
        · right; omega

theorem Memory.read_writeAll_below (m : Memory) {i j : Nat} (ds : List Word) (h : j < i) :
    (m.writeAll i ds).read j = m.read j := by
  simp [Memory.read, Memory.lookup_writeAll_below m ds h]

theorem Memory.read_writeAll_above (m : Memory) {i j : Nat} (ds : List Word) (h : i + ds.length ≤ j) :
    (m.writeAll i ds).read j = m.read j := by
  simp [Memory.read, Memory.lookup_writeAll_above m ds h]

theorem Memory.read_writeAll_inside (m : Memory) (i : Nat) (ds : List Word) {k : Nat} (h : k < ds.length) :
    (m.writeAll i ds).read (i + k) = ds[k] := by
  simp [Memory.read, Memory.lookup_writeAll_inside m i ds h]

end Sys2Proof.Machine
end

