-- ==== Sys2Proof/Laws/State.lean ====
section
/-! SUPPORT. What each update of the state writes and what it leaves: one lemma per field. -/

namespace Sys2Proof.Machine

variable (s : State)

@[simp] theorem State.setStream_cfg (rest : List Input) : (s.setStream rest).cfg = s.cfg := rfl
@[simp] theorem State.setStream_cursor (rest : List Input) : (s.setStream rest).cursor = s.cursor := rfl
@[simp] theorem State.setStream_storage (rest : List Input) : (s.setStream rest).storage = s.storage := rfl
@[simp] theorem State.setStream_counter (rest : List Input) : (s.setStream rest).counter = s.counter := rfl
@[simp] theorem State.setStream_pinEn (rest : List Input) : (s.setStream rest).pinEn = s.pinEn := rfl
@[simp] theorem State.setStream_stream (rest : List Input) : (s.setStream rest).stream = rest := rfl
@[simp] theorem State.setStream_responses (rest : List Input) : (s.setStream rest).responses = s.responses := rfl
@[simp] theorem State.setStream_pinTrace (rest : List Input) : (s.setStream rest).pinTrace = s.pinTrace := rfl

@[simp] theorem State.setCounter_cfg (v : Nat) : (s.setCounter v).cfg = s.cfg := rfl
@[simp] theorem State.setCounter_cursor (v : Nat) : (s.setCounter v).cursor = s.cursor := rfl
@[simp] theorem State.setCounter_storage (v : Nat) : (s.setCounter v).storage = s.storage := rfl
@[simp] theorem State.setCounter_counter (v : Nat) : (s.setCounter v).counter = v := rfl
@[simp] theorem State.setCounter_pinEn (v : Nat) : (s.setCounter v).pinEn = s.pinEn := rfl
@[simp] theorem State.setCounter_stream (v : Nat) : (s.setCounter v).stream = s.stream := rfl
@[simp] theorem State.setCounter_responses (v : Nat) : (s.setCounter v).responses = s.responses := rfl
@[simp] theorem State.setCounter_pinTrace (v : Nat) : (s.setCounter v).pinTrace = s.pinTrace := rfl

@[simp] theorem State.drivePin_cfg (level : Bool) : (s.drivePin level).cfg = s.cfg := rfl
@[simp] theorem State.drivePin_cursor (level : Bool) : (s.drivePin level).cursor = s.cursor := rfl
@[simp] theorem State.drivePin_storage (level : Bool) : (s.drivePin level).storage = s.storage := rfl
@[simp] theorem State.drivePin_counter (level : Bool) : (s.drivePin level).counter = s.counter := rfl
@[simp] theorem State.drivePin_pinEn (level : Bool) : (s.drivePin level).pinEn = level := rfl
@[simp] theorem State.drivePin_stream (level : Bool) : (s.drivePin level).stream = s.stream := rfl
@[simp] theorem State.drivePin_responses (level : Bool) : (s.drivePin level).responses = s.responses := rfl
@[simp] theorem State.drivePin_pinTrace (level : Bool) : (s.drivePin level).pinTrace = s.pinTrace ++ [level] := rfl

@[simp] theorem State.respond_cfg (r : Response) : (s.respond r).cfg = s.cfg := rfl
@[simp] theorem State.respond_cursor (r : Response) : (s.respond r).cursor = s.cursor := rfl
@[simp] theorem State.respond_storage (r : Response) : (s.respond r).storage = s.storage := rfl
@[simp] theorem State.respond_counter (r : Response) : (s.respond r).counter = s.counter := rfl
@[simp] theorem State.respond_pinEn (r : Response) : (s.respond r).pinEn = s.pinEn := rfl
@[simp] theorem State.respond_stream (r : Response) : (s.respond r).stream = s.stream := rfl
@[simp] theorem State.respond_responses (r : Response) : (s.respond r).responses = s.responses ++ [r] := rfl
@[simp] theorem State.respond_pinTrace (r : Response) : (s.respond r).pinTrace = s.pinTrace := rfl

@[simp] theorem State.pbNew_cfg : (s.pbNew).cfg = s.cfg := rfl
@[simp] theorem State.pbNew_cursor : (s.pbNew).cursor = 0 := rfl
@[simp] theorem State.pbNew_storage : (s.pbNew).storage = [] := rfl
@[simp] theorem State.pbNew_counter : (s.pbNew).counter = s.counter := rfl
@[simp] theorem State.pbNew_pinEn : (s.pbNew).pinEn = s.pinEn := rfl
@[simp] theorem State.pbNew_stream : (s.pbNew).stream = s.stream := rfl
@[simp] theorem State.pbNew_responses : (s.pbNew).responses = s.responses := rfl
@[simp] theorem State.pbNew_pinTrace : (s.pbNew).pinTrace = s.pinTrace := rfl

@[simp] theorem State.pbReset_cfg : (s.pbReset).cfg = s.cfg := rfl
@[simp] theorem State.pbReset_cursor : (s.pbReset).cursor = 0 := rfl
@[simp] theorem State.pbReset_storage : (s.pbReset).storage = s.storage := rfl
@[simp] theorem State.pbReset_counter : (s.pbReset).counter = s.counter := rfl
@[simp] theorem State.pbReset_pinEn : (s.pbReset).pinEn = s.pinEn := rfl
@[simp] theorem State.pbReset_stream : (s.pbReset).stream = s.stream := rfl
@[simp] theorem State.pbReset_responses : (s.pbReset).responses = s.responses := rfl
@[simp] theorem State.pbReset_pinTrace : (s.pbReset).pinTrace = s.pinTrace := rfl

@[simp] theorem State.append_cfg (ds : List Word) : (s.append ds).cfg = s.cfg := rfl
@[simp] theorem State.append_cursor (ds : List Word) : (s.append ds).cursor = s.cursor + BitVec.ofNat 32 ds.length := rfl
@[simp] theorem State.append_storage (ds : List Word) : (s.append ds).storage = s.storage.writeAll s.cursor.toNat ds := rfl
@[simp] theorem State.append_counter (ds : List Word) : (s.append ds).counter = s.counter := rfl
@[simp] theorem State.append_pinEn (ds : List Word) : (s.append ds).pinEn = s.pinEn := rfl
@[simp] theorem State.append_stream (ds : List Word) : (s.append ds).stream = s.stream := rfl
@[simp] theorem State.append_responses (ds : List Word) : (s.append ds).responses = s.responses := rfl
@[simp] theorem State.append_pinTrace (ds : List Word) : (s.append ds).pinTrace = s.pinTrace := rfl

@[simp] theorem State.setStream_buf (rest : List Input) : (s.setStream rest).buf = s.buf := rfl
@[simp] theorem State.setStream_window (rest : List Input) : (s.setStream rest).window = s.window := rfl
@[simp] theorem State.setStream_status (rest : List Input) : (s.setStream rest).status = s.status := rfl
@[simp] theorem State.setCounter_buf (v : Nat) : (s.setCounter v).buf = s.buf := rfl
@[simp] theorem State.setCounter_window (v : Nat) : (s.setCounter v).window = s.window := rfl
@[simp] theorem State.drivePin_buf (level : Bool) : (s.drivePin level).buf = s.buf := rfl
@[simp] theorem State.drivePin_window (level : Bool) : (s.drivePin level).window = s.window := rfl
@[simp] theorem State.drivePin_status (level : Bool) : (s.drivePin level).status = s.status := rfl
@[simp] theorem State.respond_buf (r : Response) : (s.respond r).buf = s.buf := rfl
@[simp] theorem State.respond_window (r : Response) : (s.respond r).window = s.window := rfl
@[simp] theorem State.respond_status (r : Response) : (s.respond r).status = s.status := rfl

@[simp] theorem State.pbNew_buf : s.pbNew.buf = [] := rfl

@[simp] theorem State.pbReset_buf : s.pbReset.buf = [] := rfl

@[simp] theorem State.buf_length : s.buf.length = s.cursor.toNat := by simp [State.buf]

@[simp] theorem State.resetWith_cfg (cfg : Config) : (State.resetWith cfg).cfg = cfg := rfl

@[simp] theorem State.resetWith_cursor (cfg : Config) : (State.resetWith cfg).cursor = 0 := rfl

end Sys2Proof.Machine
end

