-- ==== Sys2Proof/Laws/Load.lean ====
section
/-! SUPPORT. The append of PB_LOAD (R68) and LOAD's outcomes (R87, R88, R62), each said once. -/

namespace Sys2Proof.Machine

/-- A drawn count that fits the window is one of `0..min(w, needed)` (U8). -/
theorem drawnCount_le_needed {needed w draw : Nat} (h : drawnCount needed w draw ≤ w) :
    drawnCount needed w draw ≤ needed := by
  unfold drawnCount at *
  split at h
  · omega
  · rw [if_neg ‹_›]
    exact Nat.min_le_right _ _

/-- Every count that U8 admits is drawn. -/
theorem drawnCount_of_le {needed w n : Nat} (h : n ≤ min w needed) : drawnCount needed w n = n := by
  unfold drawnCount
  rw [if_neg (by omega)]
  omega

/-- Every count that U7 admits is drawn. -/
theorem drawnCount_of_lt {w n : Nat} (needed : Nat) (h : w < n) : drawnCount needed w n = n := if_pos h

theorem reportedCount_of_keepsContract {e : Encoder} (h : KeepsContract e) (cmd : Cmd) (w : Nat) :
    reportedCount e cmd w = min w (train e cmd).length := by
  unfold KeepsContract at h
  simp [reportedCount, h]

/-- A count that fits the window never exceeds the train, whatever the encoder reports. -/
theorem reportedCount_le_needed {e : Encoder} {cmd : Cmd} {w : Nat} (h : reportedCount e cmd w ≤ w) :
    reportedCount e cmd w ≤ (train e cmd).length := by
  unfold reportedCount at *
  cases hr : e.report with
  | minimum => simp
  | whole => simp
  | free => exact drawnCount_le_needed (by simpa [hr] using h)

/-- A count that fits the window is the number of durations written. -/
theorem encoded_length {e : Encoder} {cmd : Cmd} {w : Nat} (h : reportedCount e cmd w ≤ w) :
    (encoded e cmd w).length = reportedCount e cmd w := by
  simp [encoded, reportedCount_le_needed h]

/-- What is written is a prefix of the train, which depends on the entry and the command only (R60). -/
theorem encoded_prefix (e : Encoder) (cmd : Cmd) (w : Nat) : encoded e cmd w <+: train e cmd := List.take_prefix _ _

theorem encoded_of_keepsContract {e : Encoder} (h : KeepsContract e) (cmd : Cmd) (w : Nat) :
    encoded e cmd w = (train e cmd).take w := by
  rw [encoded, reportedCount_of_keepsContract h]
  rcases Nat.le_total w (train e cmd).length with hw | hw
  · rw [Nat.min_eq_left hw]
  · rw [Nat.min_eq_right hw, List.take_length, List.take_of_length_le hw]

theorem reportedCount_le {e : Encoder} (h : KeepsContract e) (cmd : Cmd) (w : Nat) : reportedCount e cmd w ≤ w := by
  rw [reportedCount_of_keepsContract h]
  exact Nat.min_le_left _ _

theorem encoded_length_le {e : Encoder} (h : KeepsContract e) (cmd : Cmd) (w : Nat) :
    (encoded e cmd w).length ≤ w := by
  rw [encoded_length (reportedCount_le h cmd w)]
  exact reportedCount_le h cmd w

/-- An append that fits moves the cursor by its length and no further: nothing wraps (R68). -/
theorem append_cursor_toNat {s : State} {ds : List Word} (h : ds.length ≤ s.window) :
    (s.append ds).cursor.toNat = s.cursor.toNat + ds.length := by
  have hc := s.cfg.capacity.isLt
  have hs := s.cursor.isLt
  unfold State.window at h
  rw [State.append_cursor, BitVec.toNat_add, BitVec.toNat_ofNat]
  omega

/-- An append that fits puts its durations after the valid ones (R70). -/
theorem append_buf {s : State} {ds : List Word} (h : ds.length ≤ s.window) : (s.append ds).buf = s.buf ++ ds := by
  apply List.ext_getElem
  · simp only [State.buf_length, List.length_append, append_cursor_toNat h]
  intro k h1 h2
  simp only [State.buf_length, append_cursor_toNat h] at h1
  rcases Nat.lt_or_ge k s.cursor.toNat with hk | hk
  · rw [List.getElem_append_left (by simpa using hk)]
    simp [State.buf, Memory.read_writeAll_below _ _ hk]
  · rw [List.getElem_append_right (by simpa using hk)]
    obtain ⟨j, rfl⟩ := Nat.exists_eq_add_of_le hk
    simp [State.buf, Memory.read_writeAll_inside _ _ _ (show j < ds.length by omega)]

/-- PB_LOAD appends what the encoder writes, if its count fits; a count that does not fit is the one fault (R62, R68). -/
theorem pbLoad_eq (s : State) (e : Encoder) (cmd : Cmd) :
    (reportedCount e cmd s.window ≤ s.window ∧ s.pbLoad e cmd = .next (s.append (encoded e cmd s.window))) ∨
    (s.window < reportedCount e cmd s.window ∧ s.pbLoad e cmd = .fault .encoderOverrun) := by
  unfold State.pbLoad
  rcases Nat.lt_or_ge s.window (reportedCount e cmd s.window) with h | h
  · exact .inr ⟨h, if_neg (Nat.not_le.mpr h)⟩
  · exact .inl ⟨h, if_pos h⟩

/-- Everything LOAD can do: refuse an absent encoder, ignore the command while not idle, append and restart the counter, or
fault on an overrun. -/
theorem execLoad_cases (sel : BitVec 4) (cmd : Cmd) (s : State) :
    (encoderAt s.cfg sel = none ∧ execLoad sel cmd s = .refused .noSuchEncoder) ∨
    ∃ e, encoderAt s.cfg sel = some e ∧
      ((s.status ≠ .idle ∧ execLoad sel cmd s = .next s) ∨
       (s.status = .idle ∧ reportedCount e cmd s.window ≤ s.window ∧
          execLoad sel cmd s = .next ((s.append (encoded e cmd s.window)).setCounter 0)) ∨
       (s.status = .idle ∧ s.window < reportedCount e cmd s.window ∧
          execLoad sel cmd s = .fault .encoderOverrun)) := by
  unfold execLoad
  cases he : encoderAt s.cfg sel with
  | none => exact .inl ⟨rfl, rfl⟩
  | some e =>
    refine .inr ⟨e, rfl, ?_⟩
    by_cases hs : s.status = .idle
    · rcases pbLoad_eq s e cmd with ⟨hw, h⟩ | ⟨hw, h⟩
      · exact .inr (.inl ⟨hs, hw, by simp [gatedLoad, hs, State.psLoadCommand, h, restartCounter]⟩)
      · exact .inr (.inr ⟨hs, hw, by simp [gatedLoad, hs, State.psLoadCommand, h, restartCounter]⟩)
    · exact .inl ⟨hs, by simp [gatedLoad, hs]⟩

end Sys2Proof.Machine
end

