-- ==== Sys2Proof/Laws/PerInstr.lean ====
section
/-! SUPPORT. Statements made for every command, one lemma per constructor of `Instr`. -/

namespace Sys2Proof.Laws.TableRow

/-- The word of a command belongs to the row of the opcode table that bears its mnemonic. -/
def Statement (i : Instr) : Prop := ∃ r ∈ opcodeTable, r.mnemonic = i.mnemonic ∧ r.holds (encode i) = true

theorem new : Statement .new := ⟨opcodeTable[0], by decide, rfl, by decide⟩

theorem load (sel : BitVec 4) (cmd : Cmd) : Statement (.load sel cmd) :=
  ⟨opcodeTable[1], by decide, rfl, by
    have h : ∀ s : BitVec 4, (opcodeTable[1]).holds (commandWord 2 s 0) = true := by decide
    exact h sel⟩

theorem tick : Statement .tick := ⟨opcodeTable[2], by decide, rfl, by decide⟩

theorem reset : Statement .reset := ⟨opcodeTable[3], by decide, rfl, by decide⟩

theorem get (index : Word) : Statement (.get index) :=
  ⟨opcodeTable[4], by decide, rfl, by
    have hmask : (opcodeTable[4]).mask = BitVec.allOnes 32 ++ 0#32 := by decide
    have hword : encode (.get index) = 0x50000000#32 ++ index := rfl
    have hvalue : (opcodeTable[4]).value = 0x50000000#32 ++ 0#32 := by decide
    rw [Row.holds, hmask, hword, hvalue, BitVec.and_append]
    simp⟩

theorem len : Statement .len := ⟨opcodeTable[5], by decide, rfl, by decide⟩

theorem buffer : Statement .buffer := ⟨opcodeTable[6], by decide, rfl, by decide⟩

end Sys2Proof.Laws.TableRow
end

