-- ==== Sys2Proof/Laws/Step.lean ====
section
/-! SUPPORT. Everything a command and a step can do, each said once. -/

namespace Sys2Proof.Machine

/-- The state a TICK leaves (R89). -/
theorem execTick_eq (s : State) :
    execTick s = .next
      (((s.setCounter s.nextCounter).drivePin (pinLevel (s.setCounter s.nextCounter).status)).respond
        (.word (statusCode (s.setCounter s.nextCounter).status))) := rfl

/-- Everything a command that answers a next state can have done. -/
theorem exec_next_cases {i : Instr} {s t : State} (h : exec i s = .next t) :
    (i = .new ∧ t = (s.pbNew.setCounter 0).drivePin false) ∨
    (∃ sel cmd, i = .load sel cmd ∧ s.status ≠ .idle ∧ t = s) ∨
    (∃ sel cmd e, i = .load sel cmd ∧ encoderAt s.cfg sel = some e ∧ s.status = .idle ∧
      reportedCount e cmd s.window ≤ s.window ∧ t = (s.append (encoded e cmd s.window)).setCounter 0) ∨
    (i = .tick ∧ t = (s.setCounter s.nextCounter).report) ∨
    (i = .reset ∧ t = s.pbReset) ∨
    (∃ index, i = .get index ∧ t = s.respond (.word (optionCode (s.pbGet index.toNat)))) ∨
    (i = .len ∧ t = s.respond (.word (lengthCode s.cursor))) ∨
    (i = .buffer ∧ t = s.respond (.list s.buf)) := by
  cases i with
  | load sel cmd =>
    have h' : execLoad sel cmd s = .next t := h
    rcases execLoad_cases sel cmd s with ⟨-, hn⟩ | ⟨e, he, ⟨hs, hn⟩ | ⟨hs, hw, hn⟩ | ⟨-, -, hn⟩⟩
    · rw [hn] at h'; cases h'
    · rw [hn] at h'; cases h'
      exact .inr (.inl ⟨sel, cmd, rfl, hs, rfl⟩)
    · rw [hn] at h'; cases h'
      exact .inr (.inr (.inl ⟨sel, cmd, e, rfl, he, hs, hw, rfl⟩))
    · rw [hn] at h'; cases h'
  | new => cases h; simp
  | tick => cases h; simp
  | reset => cases h; simp
  | get index => cases h; simp
  | len => cases h; simp
  | buffer => cases h; simp

/-- Everything a step that answers a next state can have done. -/
theorem step_next_cases {s t : State} (h : step s = .next t) :
    (s.stream = [] ∧ t = s) ∨
    (∃ tx rest i, s.stream = .command tx :: rest ∧ decode tx.word tx.sideband = .ok i ∧
      exec i (s.setStream rest) = .next t) ∨
    (∃ rest, s.stream = .resetInput :: rest ∧ exec .new (s.setStream rest) = .next t) := by
  unfold step runNext at h
  split at h
  · rename_i hs
    cases h
    exact .inl ⟨hs, rfl⟩
  · rename_i input rest hs
    cases input with
    | resetInput => exact .inr (.inr ⟨rest, hs, h⟩)
    | command tx =>
      unfold runInput runTransaction at h
      simp only at h
      split at h
      · rename_i i hd
        exact .inr (.inl ⟨tx, rest, i, hs, hd, h⟩)
      · cases h

end Sys2Proof.Machine
end

