-- ==== Sys2Proof/Laws/Run.lean ====
section
/-! SUPPORT. Runs: a run takes its first step and goes on, or stops where that step stops; a program's first command is the next
one a step executes. -/

namespace Sys2Proof.Machine

@[simp] theorem runFor_zero (s : State) : runFor 0 s = .next s := rfl

theorem run_succ_next (M : Host.Core) {k : Nat} {s t : M.State} (h : M.step s = .next t) :
    M.run (k + 1) s = M.run k t := by
  rw [Host.Core.run, h]

theorem run_succ_fault (M : Host.Core) {k : Nat} {s : M.State} {r : M.Fault} (h : M.step s = .fault r) :
    M.run (k + 1) s = .fault r := by
  rw [Host.Core.run, h]

theorem run_succ_refused (M : Host.Core) {k : Nat} {s : M.State} {r : M.Refusal} (h : M.step s = .refused r) :
    M.run (k + 1) s = .refused r := by
  rw [Host.Core.run, h]

theorem runFor_succ_next {k : Nat} {s t : State} (h : step s = .next t) : runFor (k + 1) s = runFor k t :=
  run_succ_next Sys2Proof.core h

theorem runFor_succ_fault {k : Nat} {s : State} {r : Fault} (h : step s = .fault r) : runFor (k + 1) s = .fault r :=
  run_succ_fault Sys2Proof.core h

theorem runFor_succ_refused {k : Nat} {s : State} {r : Refusal} (h : step s = .refused r) :
    runFor (k + 1) s = .refused r :=
  run_succ_refused Sys2Proof.core h

@[simp] theorem State.withProgram_nil (s : State) : s.withProgram [] = s := rfl

/-- A program's inputs stand ahead of the stream, the first command first. -/
theorem State.withProgram_cons (s : State) (i : Instr) (is : List Instr) :
    (s.withProgram (i :: is)).stream = .command (transactionOf .host i) :: (s.withProgram is).stream := rfl

/-- Taking a program's first command leaves the rest of the program. -/
theorem State.withProgram_rest (s : State) (i : Instr) (is : List Instr) :
    (s.withProgram (i :: is)).setStream (s.withProgram is).stream = s.withProgram is := rfl

@[simp] theorem State.withProgram_buf (s : State) (is : List Instr) : (s.withProgram is).buf = s.buf := rfl

@[simp] theorem State.withProgram_status (s : State) (is : List Instr) : (s.withProgram is).status = s.status := rfl

@[simp] theorem State.withProgram_window (s : State) (is : List Instr) : (s.withProgram is).window = s.window := rfl

@[simp] theorem State.withProgram_cfg (s : State) (is : List Instr) : (s.withProgram is).cfg = s.cfg := rfl

end Sys2Proof.Machine
end

