-- ==== Sys2Proof/Laws/Status.lean ====
section
/-! SUPPORT. Boundaries and segments (R75, R77), and the status function by cases (R74). -/

namespace Sys2Proof.Machine

@[simp] theorem total_nil : total [] = 0 := rfl

@[simp] theorem total_cons (d : Word) (ds : List Word) : total (d :: ds) = d.toNat + total ds := by
  simp [total]

@[simp] theorem total_append (l m : List Word) : total (l ++ m) = total l + total m := by
  simp [total]

@[simp] theorem boundary_zero (buf : List Word) : boundary buf 0 = 0 := by simp [boundary]

theorem boundary_length (buf : List Word) : boundary buf buf.length = total buf := by simp [boundary]

theorem boundary_cons_succ (d : Word) (ds : List Word) (k : Nat) :
    boundary (d :: ds) (k + 1) = d.toNat + boundary ds k := by simp [boundary]

theorem boundary_succ (buf : List Word) {k : Nat} (h : k < buf.length) :
    boundary buf (k + 1) = boundary buf k + buf[k].toNat := by
  rw [boundary, boundary, List.take_succ_eq_append_getElem h, total_append, total_cons, total_nil, Nat.add_zero]

theorem boundary_mono (buf : List Word) {j k : Nat} (h : j ≤ k) : boundary buf j ≤ boundary buf k := by
  obtain ⟨m, rfl⟩ := Nat.exists_eq_add_of_le h
  rw [boundary, boundary, List.take_add]
  simp

theorem boundary_le_total (buf : List Word) (k : Nat) : boundary buf k ≤ total buf := by
  have := total_append (buf.take k) (buf.drop k)
  rw [List.take_append_drop] at this
  simp only [boundary]
  omega

theorem range_findIdx_eq (n : Nat) (p : Nat → Bool) {k : Nat} (hk : k < n) (hp : p k = true)
    (hlt : ∀ j, j < k → p j = false) : (List.range n).findIdx p = k := by
  rw [List.findIdx_eq (by simpa using hk)]
  simpa using ⟨hp, hlt⟩

/-- The segment that holds `e` is the one between whose boundaries `e` lies (R77). -/
theorem segment_eq {buf : List Word} {e k : Nat} (hk : k < buf.length) (hup : e ≤ boundary buf (k + 1))
    (hlow : boundary buf k < e ∨ k = 0) : segment buf e = k := by
  refine range_findIdx_eq _ _ hk (by simpa using hup) fun j hj => ?_
  have hlt : boundary buf k < e := hlow.resolve_right (by omega)
  have := boundary_mono buf (show j + 1 ≤ k by omega)
  simp
  omega

/-- Every elapsed value up to the total lies in some segment (R77). -/
theorem exists_segment {buf : List Word} {e : Nat} (hne : buf ≠ []) (he : e ≤ total buf) :
    ∃ k, k < buf.length ∧ e ≤ boundary buf (k + 1) ∧ (boundary buf k < e ∨ k = 0) := by
  induction buf generalizing e with
  | nil => exact absurd rfl hne
  | cons d ds ih =>
    by_cases hd : e ≤ d.toNat
    · exact ⟨0, by simp, by simpa [boundary] using hd, .inr rfl⟩
    · have hds : ds ≠ [] := by rintro rfl; simp at he; omega
      obtain ⟨k, hk, hup, hlow⟩ := ih (e := e - d.toNat) hds (by simp at he; omega)
      refine ⟨k + 1, by simpa using hk, ?_, .inl ?_⟩
      · rw [boundary_cons_succ]; omega
      · rw [boundary_cons_succ]
        rcases hlow with h | rfl
        · omega
        · simp; omega

theorem status_nil (W e : Nat) : status W [] e = .idle := rfl

theorem status_of_malformed {W : Nat} {buf : List Word} (e : Nat) (hne : buf ≠ []) (h : ¬ WellTimed W buf) :
    status W buf e = .error := by
  unfold status WellTimed at *
  by_cases hz : 0#32 ∈ buf
  · simp [hne, hz]
  · have : 2 ^ W - 2 < total buf := by
      by_contra hle
      exact h ⟨hz, by omega⟩
    simp [hne, hz, this]

theorem status_past_end {W e : Nat} {buf : List Word} (h : WellTimed W buf) (he : total buf < e) :
    status W buf e = .idle := by
  unfold status
  by_cases hne : buf = []
  · simp [hne]
  · have h2 := h.2
    simp [hne, h.1, he, Nat.not_lt.mpr h2]

theorem status_in_segment {W e k : Nat} {buf : List Word} (h : WellTimed W buf) (hk : k < buf.length)
    (hup : e ≤ boundary buf (k + 1)) (hlow : boundary buf k < e ∨ k = 0) :
    status W buf e = .transmit (k % 2 == 0) := by
  have hne : buf ≠ [] := by rintro rfl; simp at hk
  have hle := boundary_le_total buf (k + 1)
  have h2 := h.2
  unfold status
  rw [segment_eq hk hup hlow]
  simp [hne, h.1, Nat.not_lt.mpr h2, Nat.not_lt.mpr (le_trans hup hle)]

/-- The status function, by cases: it says all that `status` can answer (R74). -/
theorem status_cases (W : Nat) (buf : List Word) (e : Nat) :
    (buf = [] ∧ status W buf e = .idle) ∨
    (buf ≠ [] ∧ ¬ WellTimed W buf ∧ status W buf e = .error) ∨
    (buf ≠ [] ∧ WellTimed W buf ∧ total buf < e ∧ status W buf e = .idle) ∨
    (WellTimed W buf ∧ ∃ k, k < buf.length ∧ e ≤ boundary buf (k + 1) ∧ (boundary buf k < e ∨ k = 0) ∧
      status W buf e = .transmit (k % 2 == 0)) := by
  by_cases hne : buf = []
  · exact .inl ⟨hne, by rw [hne]; rfl⟩
  by_cases h : WellTimed W buf
  · rcases Nat.lt_or_ge (total buf) e with he | he
    · exact .inr (.inr (.inl ⟨hne, h, he, status_past_end h he⟩))
    · obtain ⟨k, hk, hup, hlow⟩ := exists_segment hne he
      exact .inr (.inr (.inr ⟨h, k, hk, hup, hlow, status_in_segment h hk hup hlow⟩))
  · exact .inr (.inl ⟨hne, h, status_of_malformed e hne h⟩)

theorem waveform_length (c : Bool) (ds : List Word) : (waveform c ds).length = total ds := by
  induction ds generalizing c with
  | nil => rfl
  | cons d ds ih => simp [waveform, ih]

end Sys2Proof.Machine
end

