-- ==== Sys2Proof/Tests/Slice0.lean ====
section
/-! SUPPORT. Tests whose expected results are the vectors of 95_test_vectors.md or a hand calculation from the rules, and for each
statement a concrete state and operands that meet its hypotheses. -/

namespace Sys2Proof.Tests

open Sys2Proof.Machine

/-- The state `(buf, counter, pin_en)` of the vectors, with `S = 8` and `W = 32`. -/
def st (buf : List Word) (counter : Nat) (pin : Bool) : State :=
  { (State.resetWith (testConfig 8 32)).append buf with counter := counter, pinEn := pin, pinTrace := [pin] }

/-- The same with a capacity and a counter width of its own. -/
def stWith (S : Word) (W : Nat) (buf : List Word) (counter : Nat) : State :=
  { (State.resetWith (testConfig S W)).append buf with counter := counter }

/-- An encoder that reports its whole train whatever the window holds (U7). -/
def overrunning : Encoder := { listEncoder with report := .whole }

/-- A block whose every entry is the overrunning encoder. -/
def overrunningBlock : State :=
  State.resetWith { capacity := 2, width := 32, encoders := Vector.ofFn fun _ => some overrunning }

/-- What is asked of an outcome's next state, if there is one. -/
def nextIs (o : Host.Outcome State Fault Refusal) (p : State → Bool) : Bool :=
  match o with
  | .next s => p s
  | .fault _ => false
  | .refused _ => false

/-- The reason an outcome was refused. -/
def refusedAs (o : Host.Outcome State Fault Refusal) (r : Refusal) : Bool :=
  match o with
  | .refused q => q == r
  | .next _ => false
  | .fault _ => false

/-- The reason an outcome is a fault. -/
def faultIs (o : Host.Outcome State Fault Refusal) (r : Fault) : Bool :=
  match o with
  | .fault q => q == r
  | .next _ => false
  | .refused _ => false

/-! ## Decoding: words written out from the bit patterns of the opcode table -/

theorem test_decode_new :
    decode 0b0001000000000000000000000000000000000000000000000000000000000000 [] = .ok .new := by decide

theorem test_decode_load_sel_10 :
    decode 0b0010101000000000000000000000000000000000000000000000000000000000 [7] = .ok (.load 10 [7]) := by decide

theorem test_decode_tick :
    decode 0b0011000000000000000000000000000000000000000000000000000000000000 [] = .ok .tick := by decide

theorem test_decode_reset :
    decode 0b0100000000000000000000000000000000000000000000000000000000000000 [] = .ok .reset := by decide

theorem test_decode_get_top_bit :
    decode 0b0101000000000000000000000000000010000000000000000000000000000011 [] = .ok (.get 0x80000003) := by decide

theorem test_decode_len :
    decode 0b0110000000000000000000000000000000000000000000000000000000000000 [] = .ok .len := by decide

theorem test_decode_buffer :
    decode 0b0111000000000000000000000000000000000000000000000000000000000000 [] = .ok .buffer := by decide

theorem test_decode_table_word : decodeTableWord 64 0x5000000000000005 = some (.get 5) := by decide

theorem test_decode_table_word_reserved : decodeTableWord 64 0x8000000000000000 = none := by decide

/-! ## WellFormed: an ill-formed term for each check -/

theorem test_wf_config_width_one : (testConfig 8 1).wf = false := by decide

theorem test_wf_load_absent_encoder : (Instr.load 1 []).wf (testConfig 8 32) = false := by decide

theorem test_wf_tick_with_sideband :
    ({ issuer := .host, word := 0x3000000000000000, sideband := [1] } : Transaction).wf = false := by decide

theorem test_wf_line_sel_16 : (Line.load 16 []).wf = false := by decide

theorem test_wf_line_reload_sel_16 : (Line.reload 16 []).wf = false := by decide

theorem test_wf_line_index_too_large : (Line.get 0x100000000).wf = false := by decide

theorem test_wf_line_duration_too_large : (Line.load 0 [0x100000000]).wf = false := by decide

theorem test_wf_accepts :
    (testConfig 8 32).wf = true ∧ (Instr.load 0 [1]).wf (testConfig 8 32) = true ∧
    (transactionOf .host (.load 0 [1])).wf = true ∧ (Line.load 15 [0xFFFFFFFF]).wf = true ∧
    (Line.get 0xFFFFFFFF).wf = true := by decide

/-! ## The status function: section 2.2 of the vectors -/

theorem test_status_segments :
    [0, 1, 3, 4, 5, 6, 7].map (status 32 [3, 2, 1]) =
      [.transmit true, .transmit true, .transmit true, .transmit false, .transmit false, .transmit true, .idle] := by
  decide

theorem test_status_zero_duration :
    status 32 [0] 5 = .error ∧ status 32 [5, 0, 5] 1 = .error ∧ status 32 [] 12345 = .idle := by decide

theorem test_status_long_train :
    status 32 [0xFFFFFFFF] 1 = .error ∧ status 32 [0xFFFFFFFE] 0xFFFFFFFE = .transmit true ∧
    status 32 [0x80000000, 0x7FFFFFFF] 1 = .error ∧ status 32 [0x7FFFFFFF, 0x7FFFFFFF] 0x80000000 = .transmit false := by
  decide

theorem test_status_narrow_counter :
    status 3 [2, 3] 5 = .transmit false ∧ status 3 [2, 3] 6 = .idle ∧ status 3 [6] 6 = .transmit true ∧
    status 3 [3, 4] 1 = .error ∧ status 2 [1, 1] 2 = .transmit false ∧ status 2 [3] 1 = .error := by decide

/-! ## One command: sections 2.3 to 2.7 of the vectors -/

theorem test_new_in_a_mark :
    nextIs (exec .new (st [3, 2, 1] 2 true))
      (fun t => t.cursor == 0 && t.counter == 0 && !t.pinEn && t.pinTrace == [true, false]) = true := by decide

theorem test_load_truncates :
    nextIs (exec (.load 0 [1, 2, 3, 4]) (stWith 4 32 [9] 10)) (fun t => t.buf == [9, 1, 2, 3] && t.counter == 0) =
      true := by decide

theorem test_load_gate :
    nextIs (exec (.load 0 [4]) (st [3, 2, 1] 6 true)) (fun t => t == st [3, 2, 1] 6 true) = true ∧
    nextIs (exec (.load 0 [4]) (st [3, 2, 1] 7 false)) (fun t => t.buf == [3, 2, 1, 4]) = true ∧
    refusedAs (exec (.load 1 [4]) (st [] 3 false)) .noSuchEncoder = true ∧
    faultIs (exec (.load 0 [1, 2, 3]) overrunningBlock) .encoderOverrun = true := by decide

/-- Three durations and a window of two, then one duration and a window of five: the counts of U8, and one of U7. -/
theorem test_drawn_counts :
    [0, 1, 2, 7].map (drawnCount 3 2) = [0, 1, 2, 7] ∧ [1, 4, 6].map (drawnCount 1 5) = [1, 1, 6] := by decide

theorem test_tick_wraps_and_replays :
    nextIs (exec .tick (st [3, 2, 1] 0xFFFFFFFF false))
      (fun t => t.counter == 0 && t.pinEn && t.responses == [.word 0b11]) = true := by decide

theorem test_tick_space_drives_low :
    nextIs (exec .tick (st [3, 2, 1] 3 true))
      (fun t => t.counter == 4 && !t.pinEn && t.responses == [.word 0b10]) = true := by decide

theorem test_reset_keeps_counter_and_pin :
    nextIs (exec .reset (st [3, 2, 1] 2 true))
      (fun t => t.cursor == 0 && t.counter == 2 && t.pinEn && t.storage == [(0, 3), (1, 2), (2, 1)]) = true := by decide

theorem test_get_some :
    nextIs (exec (.get 0) (st [0xFFFFFFFF] 0 false)) (fun t => t.responses == [.word 0x00000001FFFFFFFF]) = true := by
  decide

theorem test_get_stale_slot :
    nextIs (exec (.get 0) { st [7, 8] 0 false with cursor := 0 }) (fun t => t.responses == [.word 0]) = true := by decide

theorem test_len : nextIs (exec .len (st [7, 8] 0 false)) (fun t => t.responses == [.word 2]) = true := by decide

theorem test_buffer : nextIs (exec .buffer (st [7, 8] 0 false)) (fun t => t.responses == [.list [7, 8]]) = true := by
  decide

/-! ## The step from reset -/

theorem test_step_tick_from_reset :
    nextIs (step (State.reset.withFetchWord 64 0x3000000000000000))
      (fun t => t.counter == 1 && !t.pinEn && t.responses == [.word 0] && t.stream == []) = true := by decide

theorem test_step_reserved_word :
    refusedAs (step (State.reset.withFetchWord 64 0x3100000000000000)) .reservedCommand = true := by decide

/-! ## The assembler: lines of R57 and R58 -/

theorem test_assemble_lines :
    assemble ["NEW ; start", "LOAD  0, [3, 2, 1]", "TICKS 2", "GET 0x1F", "", "; done"] =
      some [.new, .load 0 [3, 2, 1], .tick, .tick, .get 31] := by decide

theorem test_assemble_pseudo :
    assemble ["ABORT", "RELOAD 15, []"] = some [.reset, .tick, .reset, .load 15 []] := by decide

theorem test_assemble_refuses :
    assemble ["LOAD 16, []"] = none ∧ assemble ["GET"] = none ∧ assemble ["LOAD 0x1, []"] = none ∧
    assemble ["LOAD 0 [1]"] = none ∧ assemble ["TICK 1"] = none := by decide

theorem test_assemble_numbers :
    number "0xFFFFFFFF".toList = some 4294967295 ∧ number "0x1f".toList = some 31 ∧ number "10".toList = some 10 ∧
    number "0x".toList = none ∧ number "1F".toList = none ∧ number "0xG".toList = none := by decide

/-! ## Witnesses: states and operands that meet the hypotheses of the statements -/

/-- A state with a command pending: the given word, and a TICK behind it. -/
def pending (w : Word64) (s : State) : State :=
  { s with stream := [.command { issuer := .host, word := w, sideband := [4] }, inputOf .tickSource .tick] }

theorem witness_DecodedWordIsTheEncoding : decode 0x2F00000000000000 [4] = .ok (.load 15 [4]) := by decide

theorem witness_ReservedWordsAreRefused :
    (pending 0x3100000000000000 (st [] 0 false)).stream =
      .command { issuer := .host, word := 0x3100000000000000, sideband := [4] } :: [inputOf .tickSource .tick] := rfl

theorem witness_StepRunsTheDecodedCommand :
    (pending 0x2000000000000000 (st [] 0 false)).stream =
      .command { issuer := .host, word := 0x2000000000000000, sideband := [4] } :: [inputOf .tickSource .tick] ∧
    decode 0x2000000000000000 [4] = .ok (.load 0 [4]) := by decide

theorem witness_StepWaitsWhileNothingIsPending : (st [3] 1 true).stream = [] := rfl

theorem witness_NewAndResetInputLeaveTheResetState :
    ({ st [3] 1 true with stream := [.resetInput] } : State).stream = .resetInput :: [] ∧
    (pending 0x1000000000000000 (st [3] 1 true)).stream =
      .command { issuer := .host, word := 0x1000000000000000, sideband := [4] } :: [inputOf .tickSource .tick] ∧
    decode 0x1000000000000000 [4] = .ok .new := by decide

/-- For StreamIsTakenInOrder and NoStepChangesTheConfiguration: a command, a reset input with a command behind it, and a wait. -/
theorem witness_a_step_answers_next :
    (∃ t, step (pending 0x2000000000000000 (st [] 0 false)) = .next t) ∧
    (∃ t, step { st [3] 1 true with stream := [.resetInput, inputOf .tickSource .tick] } = .next t) ∧
    ∃ t, step (st [3] 1 true) = .next t := ⟨⟨_, rfl⟩, ⟨_, rfl⟩, ⟨_, rfl⟩⟩

/-- For ResetDiscardsTheBuffer: an encoder that keeps its contract, and an empty buffer. -/
theorem witness_ResetDiscardsTheBuffer :
    encoderAt (st [3] 1 true).cfg 0 = some listEncoder ∧ KeepsContract listEncoder ∧ (st [] 1 true).cursor = 0 :=
  ⟨by decide, rfl, by decide⟩

/-- For BusyLoadChangesNothing: one state for each clause. -/
theorem witness_BusyLoadChangesNothing :
    encoderAt (st [0] 0 false).cfg 0 = some listEncoder ∧ (st [0] 0 false).status = .error ∧
    (st [3] 3 true).status = .transmit true ∧ (st [3, 1] 4 false).status = .transmit false := by decide

/-- For IdleLoadAppendsThePrefixThatFits: a window the train just fills, one it does not fit, and a full buffer. -/
theorem witness_IdleLoadAppendsThePrefixThatFits :
    encoderAt (stWith 4 32 [9] 10).cfg 0 = some listEncoder ∧ KeepsContract listEncoder ∧
    (stWith 4 32 [9] 10).status = .idle ∧ (train listEncoder [1, 2, 3]).length = (stWith 4 32 [9] 10).window ∧
    (stWith 4 32 [9] 10).window < (train listEncoder [1, 2, 3, 4]).length ∧
    (stWith 1 32 [9] 10).status = .idle ∧ (stWith 1 32 [9] 10).window = 0 :=
  ⟨by decide, rfl, by decide, by decide, by decide, by decide, by decide⟩

theorem witness_EncoderWritesTheMinimum : KeepsContract listEncoder ∧ 0 < (encoded listEncoder [1, 2, 3] 2).length :=
  ⟨rfl, by decide⟩

/-- For IdleLoadAppendsTheReportOrFaults: a count that just fits and one that is one too large. -/
theorem witness_IdleLoadAppendsTheReportOrFaults :
    encoderAt overrunningBlock.cfg 0 = some overrunning ∧ overrunningBlock.status = .idle ∧
    reportedCount overrunning [1, 2] overrunningBlock.window = overrunningBlock.window ∧
    overrunningBlock.window < reportedCount overrunning [1, 2, 3] overrunningBlock.window := by decide

/-- For EqualLoadsPresentTheSameTrain: the train whole, and cut short by a small block. -/
theorem witness_EqualLoadsPresentTheSameTrain :
    encoderAt (st [] 5 false).cfg 0 = some listEncoder ∧ encoderAt (stWith 2 32 [9] 10).cfg 0 = some listEncoder ∧
    (st [] 5 false).status = .idle ∧ (stWith 2 32 [9] 10).status = .idle ∧
    (∃ t, exec (.load 0 [4, 5]) (st [] 5 false) = .next t) ∧ ∃ t, exec (.load 0 [4, 5]) (stWith 2 32 [9] 10) = .next t :=
  ⟨by decide, by decide, by decide, by decide, ⟨_, rfl⟩, ⟨_, rfl⟩⟩

theorem witness_LoadsWithinCapacityConcatenate :
    (∀ p ∈ [(listEncoder, [0#32]), (listEncoder, [0#32])], KeepsContract p.1) ∧
    ([(listEncoder, [0#32]), (listEncoder, [0#32])].map fun p => (train p.1 p.2).length).sum ≤
      (st [] 0 false).cfg.capacity.toNat - (st [] 0 false).cursor.toNat :=
  ⟨by simp [KeepsContract, listEncoder], by decide⟩

/-- For OnlyTickAndNewDriveThePin, CounterIsWrittenAsListed and EveryCommandKeepsWhatItDoesNotWrite: every command answers a next
state somewhere. -/
theorem witness_every_command_answers_next :
    (∃ t, exec .new (st [3] 1 true) = .next t) ∧ (∃ t, exec (.load 0 [4]) (st [] 5 false) = .next t) ∧
    (∃ t, exec (.load 0 [4]) (st [3] 1 true) = .next t) ∧ (∃ t, exec .tick (st [3] 1 true) = .next t) ∧
    (∃ t, exec .reset (st [3] 1 true) = .next t) ∧ (∃ t, exec (.get 0) (st [3] 1 true) = .next t) ∧
    (∃ t, exec .len (st [3] 1 true) = .next t) ∧ ∃ t, exec .buffer (st [3] 1 true) = .next t :=
  ⟨⟨_, rfl⟩, ⟨_, rfl⟩, ⟨_, rfl⟩, ⟨_, rfl⟩, ⟨_, rfl⟩, ⟨_, rfl⟩, ⟨_, rfl⟩, ⟨_, rfl⟩⟩

/-- For EveryCommandKeepsWhatItDoesNotWrite: a LOAD that is taken, and one that is not. -/
theorem witness_EveryCommandKeepsWhatItDoesNotWrite :
    encoderAt (st [] 5 false).cfg 0 = some listEncoder ∧ (st [] 5 false).status = .idle ∧
    nextIs (exec (.load 0 [4]) (st [] 5 false)) (fun t => t.cursor == 1 && t.storage == [(0, 4)]) = true ∧
    (st [3] 1 true).status ≠ .idle ∧
    nextIs (exec (.load 0 [4]) (st [3] 1 true)) (fun t => t.cursor == 1 && t.storage == [(0, 3)]) = true := by decide

/-- For CounterIsWrittenAsListed: the two clauses about LOAD. -/
theorem witness_CounterIsWrittenAsListed :
    (st [] 5 false).status = .idle ∧ (st [3] 1 true).status ≠ .idle := by decide

/-- For GetAnswersTheDurationOrNone: the last valid index and the first invalid one. -/
theorem witness_GetAnswersTheDurationOrNone :
    (1#32).toNat < (st [7, 8] 0 false).cursor.toNat ∧ (st [7, 8] 0 false).cursor.toNat ≤ (2#32).toNat := by decide

theorem witness_GetReadsWhatLoadWrote :
    encoderAt (st [3] 4 false).cfg 0 = some listEncoder ∧ KeepsContract listEncoder ∧ (st [3] 4 false).status = .idle ∧
    (∃ t, exec (.load 0 [5, 6]) (st [3] 4 false) = .next t) ∧
    (2#32).toNat = (st [3] 4 false).cursor.toNat + 1 ∧
    1 < (st [3] 4 false).cfg.capacity.toNat - (st [3] 4 false).cursor.toNat ∧ 1 < (train listEncoder [5, 6]).length :=
  ⟨by decide, rfl, by decide, ⟨_, rfl⟩, by decide, by decide, by decide⟩

/-- For StatusFollowsTheRule and ErrorExactlyForMalformedTrains: each clause at its boundary, the largest total that is allowed and
the smallest that is not, and the last elapsed value of a segment. -/
theorem witness_StatusFollowsTheRule :
    (∃ d ∈ [5#32, 0#32], d.toNat = 0) ∧ 2 ^ 3 - 2 < ([3#32, 4#32].map BitVec.toNat).sum ∧
    (∀ d ∈ [2#32, 4#32], d.toNat ≠ 0) ∧ ([2#32, 4#32].map BitVec.toNat).sum = 2 ^ 3 - 2 ∧
    ([2#32, 4#32].map BitVec.toNat).sum < 7 ∧ 6 = (([2#32, 4#32].take 2).map BitVec.toNat).sum ∧
    ∀ k, k < 1 → (([2#32, 4#32].take (k + 1)).map BitVec.toNat).sum < 6 :=
  ⟨⟨0#32, by decide, rfl⟩, by decide, by simp, by decide, by decide, by decide, by decide⟩

theorem witness_ErrorExactlyForMalformedTrains :
    (st [5, 0] 0 false).buf ≠ [] ∧ (∃ d ∈ (st [5, 0] 0 false).buf, d.toNat = 0) ∧
    2 ^ (stWith 8 3 [3, 4] 0).cfg.width - 2 < ((stWith 8 3 [3, 4] 0).buf.map BitVec.toNat).sum :=
  ⟨by decide, ⟨0#32, by decide, rfl⟩, by decide⟩

/-- For SegmentGivesItsParity: the first and the last elapsed value of segment 1, and 0 in segment 0. -/
theorem witness_SegmentGivesItsParity :
    WellTimed 3 [2, 3] ∧ 1 < [2#32, 3#32].length ∧ boundary [2, 3] 1 < 3 ∧ 3 ≤ boundary [2, 3] 2 ∧
    5 = boundary [2, 3] 2 ∧ 0 ≤ boundary [2, 3] 1 :=
  ⟨⟨by decide, by decide⟩, by decide, by decide, by decide, by decide, by decide⟩

theorem witness_WrapToZeroIsTheFirstMark :
    WellTimed 3 [2, 3] ∧ 2 ≤ (2#32).toNat ∧ 0 < [3#32].length ∧ boundary [2, 3] 1 < 3 ∧ 3 ≤ boundary [2, 3] 2 ∧
    (stWith 8 3 [2, 3] 7).buf ≠ [] ∧
    WellTimed (stWith 8 3 [2, 3] 7).cfg.width (stWith 8 3 [2, 3] 7).buf ∧
    (stWith 8 3 [2, 3] 7).counter + 1 = 2 ^ (stWith 8 3 [2, 3] 7).cfg.width :=
  ⟨⟨by decide, by decide⟩, by decide, by decide, by decide, by decide, by decide, ⟨by decide, by decide⟩, by decide⟩

theorem witness_TicksAdvanceTheCounter : (stWith 8 3 [2, 3] 7).counter < 2 ^ (stWith 8 3 [2, 3] 7).cfg.width := by
  decide

theorem witness_LoadedTrainIsSentSegmentBySegment :
    encoderAt (stWith 8 3 [] 5).cfg 0 = some listEncoder ∧ KeepsContract listEncoder ∧ (stWith 8 3 [] 5).cursor = 0 ∧
    [2, 3] = (train listEncoder [2, 3]).take (stWith 8 3 [] 5).cfg.capacity.toNat ∧
    WellTimed (stWith 8 3 [] 5).cfg.width [2, 3] :=
  ⟨by decide, rfl, by decide, by decide, ⟨by decide, by decide⟩⟩

theorem witness_PinIsHighForExactlyTheMarks :
    (stWith 8 3 [2, 3] 0).buf ≠ [] ∧ WellTimed (stWith 8 3 [2, 3] 0).cfg.width (stWith 8 3 [2, 3] 0).buf ∧
    (stWith 8 3 [2, 3] 0).counter = 0 :=
  ⟨by decide, ⟨by decide, by decide⟩, by decide⟩

/-- For TrainEndsAndStaysIdle: from the last tick of the train, to the last value before the wrap. -/
theorem witness_TrainEndsAndStaysIdle :
    (stWith 8 3 [2, 3] 5).buf ≠ [] ∧ WellTimed (stWith 8 3 [2, 3] 5).cfg.width (stWith 8 3 [2, 3] 5).buf ∧
    total (stWith 8 3 [2, 3] 5).buf < (stWith 8 3 [2, 3] 5).counter + 1 ∧
    (stWith 8 3 [2, 3] 5).counter + 2 < 2 ^ (stWith 8 3 [2, 3] 5).cfg.width :=
  ⟨by decide, ⟨by decide, by decide⟩, by decide, by decide⟩

theorem witness_CounterWrapReplaysTheTrain :
    (stWith 8 3 [2, 3] 5).buf ≠ [] ∧ WellTimed (stWith 8 3 [2, 3] 5).cfg.width (stWith 8 3 [2, 3] 5).buf ∧
    total (stWith 8 3 [2, 3] 5).buf ≤ (stWith 8 3 [2, 3] 5).counter ∧
    (stWith 8 3 [2, 3] 5).counter + 2 + 1 = 2 ^ (stWith 8 3 [2, 3] 5).cfg.width :=
  ⟨by decide, ⟨by decide, by decide⟩, by decide, by decide⟩

theorem witness_ErrorIsLeftOnlyByNewOrReset :
    (st [0] 5 false).status = .error ∧ (∃ t, exec (.load 0 [4]) (st [0] 5 false) = .next t) ∧
    emptiesBuffer (.load 0 [4]) = false ∧ ∃ t, exec .tick (st [0] 5 false) = .next t :=
  ⟨by decide, ⟨_, rfl⟩, rfl, ⟨_, rfl⟩⟩

theorem witness_OnlyNewAndResetChangeABusyBuffer :
    (st [3] 1 true).status ≠ .idle ∧ (∃ t, exec (.load 0 [4]) (st [3] 1 true) = .next t) ∧
    emptiesBuffer (.load 0 [4]) = false :=
  ⟨by decide, ⟨_, rfl⟩, rfl⟩

theorem witness_SecondLoadBeforeATickIsIgnored :
    (st [] 5 false).status = .idle ∧ encoderAt (st [] 5 false).cfg 0 = some listEncoder ∧
    nextIs (exec (.load 0 [4]) (st [] 5 false)) (fun t => t.buf != []) = true := by decide

theorem witness_LoadAtTheEndDependsOnTheOrder :
    encoderAt (st [3, 2] 5 false).cfg 0 = some listEncoder ∧ KeepsContract listEncoder ∧ (st [3, 2] 5 false).buf ≠ [] ∧
    WellTimed (st [3, 2] 5 false).cfg.width (st [3, 2] 5 false).buf ∧
    (st [3, 2] 5 false).counter = total (st [3, 2] 5 false).buf :=
  ⟨by decide, rfl, by decide, ⟨by decide, by decide⟩, by decide⟩

theorem witness_ReloadIsAlwaysAccepted :
    (Line.reload 0 [1]).wf = true ∧ encoderAt (st [0] 5 false).cfg (BitVec.ofNat 4 0) = some listEncoder ∧
    KeepsContract listEncoder :=
  ⟨by decide, by decide, rfl⟩

/-- For LawfulRunNeverStops and LawfulStepGoesOnLawfully. -/
theorem witness_a_lawful_state : (pending 0x2000000000000000 (st [] 0 false)).Lawful := by
  constructor
  · have h : ∀ sel : BitVec 4, encoderAt (testConfig 8 32) sel = none ∨ encoderAt (testConfig 8 32) sel = some listEncoder := by
      decide
    intro sel e he
    rcases h sel with hn | hs
    · cases hn.symm.trans he
    · cases hs.symm.trans he
      rfl
  · intro tx htx
    simp only [pending, inputOf, List.mem_cons, Input.command.injEq, List.not_mem_nil, or_false] at htx
    rcases htx with rfl | rfl
    · exact ⟨.load 0 [4], by decide, by decide⟩
    · exact ⟨.tick, by decide, by decide⟩

theorem witness_EveryStepKeepsTheInvariant :
    (pending 0x3000000000000000 (st [3, 2, 1] 2 true)).Inv ∧
    ∃ t, step (pending 0x3000000000000000 (st [3, 2, 1] 2 true)) = .next t :=
  ⟨⟨by decide, by decide, by decide, by decide, by decide, by decide, by decide⟩, ⟨_, rfl⟩⟩

theorem witness_ResetMeetsTheInvariant : (testConfig 8 32).wf = true := by decide

/-- For AlikeStatesAnswerAlike: two states that differ in a stale slot only. -/
theorem witness_AlikeStatesAnswerAlike :
    State.Alike { st [7, 8] 0 false with cursor := 1 } { st [7, 9] 0 false with cursor := 1 } ∧
    ({ st [7, 8] 0 false with cursor := 1 } : State) ≠ { st [7, 9] 0 false with cursor := 1 } :=
  ⟨⟨rfl, rfl, by decide, rfl, rfl, rfl, rfl, rfl⟩, by decide⟩

end Sys2Proof.Tests
end

/-! The configuration (R21) and the pin (R20, R90): which commands write them. -/

namespace Sys2Proof.Machine

/-! ### The report of a TICK, field by field -/

section Report

variable (s : State)

@[simp] theorem State.report_cfg : s.report.cfg = s.cfg := rfl
@[simp] theorem State.report_pinEn : s.report.pinEn = pinLevel s.status := rfl
@[simp] theorem State.report_pinTrace : s.report.pinTrace = s.pinTrace ++ [pinLevel s.status] := rfl
@[simp] theorem State.report_status : s.report.status = s.status := rfl

end Report

/-- The pin is high for one status only (R90). -/
theorem pinLevel_eq_true_iff (st : Status) : pinLevel st = true ↔ st = .transmit true := by
  cases st with
  | idle => simp [pinLevel]
  | transmit c => simp [pinLevel]
  | error => simp [pinLevel]

/-! ### The configuration -/

/-- Frame: a command that answers a next state, whichever it is, leaves the configuration as built (R21). -/
theorem exec_next_cfg {i : Instr} {s t : State} (h : exec i s = .next t) : t.cfg = s.cfg := by
  rcases exec_next_cases h with ⟨-, rfl⟩ | ⟨_, _, -, -, rfl⟩ | ⟨_, _, _, -, -, -, -, rfl⟩ | ⟨-, rfl⟩ | ⟨-, rfl⟩ |
    ⟨_, -, rfl⟩ | ⟨-, rfl⟩ | ⟨-, rfl⟩
  all_goals simp

/-- Settles O12: a step waits or executes one command, and no command writes the configuration. -/
theorem noStepChangesTheConfiguration : Obligations.NoStepChangesTheConfiguration := by
  intro s t h
  rcases step_next_cases h with ⟨-, rfl⟩ | ⟨_, rest, i, -, -, hexec⟩ | ⟨rest, -, hexec⟩
  · rfl
  · exact (exec_next_cfg hexec).trans (s.setStream_cfg rest)
  · exact (exec_next_cfg hexec).trans (s.setStream_cfg rest)

/-! ### The pin -/

theorem exec_tick_pin {s t : State} (h : exec .tick s = .next t) :
    t.pinEn = pinLevel t.status ∧ t.pinTrace = s.pinTrace ++ [t.pinEn] := by
  have ht : t = (s.setCounter s.nextCounter).report := by simpa using exec_next_cases h
  subst ht
  simp

theorem exec_new_pin {s t : State} (h : exec .new s = .next t) :
    t.pinEn = false ∧ t.pinTrace = s.pinTrace ++ [false] := by
  have ht : t = (s.pbNew.setCounter 0).drivePin false := by simpa using exec_next_cases h
  subst ht
  simp

/-- Frame: every command but TICK and NEW leaves the pin and its trace alone. -/
theorem exec_pin_unchanged {i : Instr} {s t : State} (h : exec i s = .next t) (htick : i ≠ .tick) (hnew : i ≠ .new) :
    t.pinEn = s.pinEn ∧ t.pinTrace = s.pinTrace := by
  rcases exec_next_cases h with ⟨hi, -⟩ | ⟨_, _, -, -, rfl⟩ | ⟨_, _, _, -, -, -, -, rfl⟩ | ⟨hi, -⟩ | ⟨-, rfl⟩ |
    ⟨_, -, rfl⟩ | ⟨-, rfl⟩ | ⟨-, rfl⟩
  case inl => exact absurd hi hnew
  case inr.inr.inr.inl => exact absurd hi htick
  all_goals simp

/-- Settles O24: TICK drives `pinLevel` of the status it answers, NEW drives low, and the frame covers the rest. -/
theorem onlyTickAndNewDriveThePin : Obligations.OnlyTickAndNewDriveThePin := by
  intro i s t h
  refine ⟨?_, ?_, exec_pin_unchanged h⟩
  · rintro rfl
    obtain ⟨hlevel, htrace⟩ := exec_tick_pin h
    exact ⟨by rw [hlevel, pinLevel_eq_true_iff], htrace⟩
  · rintro rfl
    exact exec_new_pin h

end Sys2Proof.Machine

/-! Encodings: the words that spell no command (R49, R54), and TICK's response word (R50). -/

namespace Sys2Proof

/-! ### The words that decode -/

/-- A word spells a command exactly if its opcode is one of the seven, and the zero checks hold in which only LOAD uses
`sel` and only GET uses `arg` (R46, R49). -/
theorem exists_decode_ok_iff (cw : Word64) (sideband : Cmd) :
    (∃ i, decode cw sideband = .ok i) ↔
      (0 < (opField cw).toNat ∧ (opField cw).toNat < 8) ∧
        zerosHold ((opField cw).toNat == 2) ((opField cw).toNat == 5) cw = true := by
  constructor
  · rintro ⟨i, h⟩
    rcases decode_ok_cases h with ⟨hop, hz, -⟩ | ⟨hop, hz, -⟩ | ⟨hop, hz, -⟩ | ⟨hop, hz, -⟩ | ⟨hop, hz, -⟩ |
      ⟨hop, hz, -⟩ | ⟨hop, hz, -⟩
    all_goals simpa [hop] using hz
  · rintro ⟨⟨hpos, hlt⟩, hz⟩
    unfold decode
    generalize (opField cw).toNat = op at hpos hlt hz
    interval_cases op
    all_goals exact ⟨_, checked_ok.mpr ⟨hz, rfl⟩⟩

/-- The same over the bits of the word as a number, with the fields where R44 puts them. -/
theorem exists_decode_ok_iff_toNat (cw : Word64) (sideband : Cmd) :
    (∃ i, decode cw sideband = .ok i) ↔
      (0 < cw.toNat / 2 ^ 60 ∧ cw.toNat / 2 ^ 60 < 8) ∧ cw.toNat / 2 ^ 32 % 2 ^ 24 = 0 ∧
        (cw.toNat / 2 ^ 60 = 2 ∨ cw.toNat / 2 ^ 56 % 2 ^ 4 = 0) ∧ (cw.toNat / 2 ^ 60 = 5 ∨ cw.toNat % 2 ^ 32 = 0) := by
  rw [exists_decode_ok_iff, zerosHold_eq, beq_iff_eq, beq_iff_eq]
  simp only [← BitVec.toNat_inj, opField_toNat, selField_toNat, reservedField_toNat, argField_toNat]
  rfl

end Sys2Proof

namespace Sys2Proof.Machine

/-! ### The words that are refused -/

/-- No command is refused as reserved once its word has decoded: LOAD's refusal is `noSuchEncoder`. -/
theorem exec_ne_reservedCommand (i : Instr) (s : State) : exec i s ≠ .refused .reservedCommand := by
  cases i with
  | load sel cmd =>
    change execLoad sel cmd s ≠ _
    rcases execLoad_cases sel cmd s with ⟨-, h⟩ | ⟨_, -, ⟨-, h⟩ | ⟨-, -, h⟩ | ⟨-, -, h⟩⟩
    all_goals simp [h]
  | new => exact nofun
  | tick => exact nofun
  | reset => exact nofun
  | get index => exact nofun
  | len => exact nofun
  | buffer => exact nofun

/-- A transaction is refused as reserved exactly if its word spells no command (R54). -/
theorem runTransaction_eq_reservedCommand_iff (tx : Transaction) (s : State) :
    runTransaction tx s = .refused .reservedCommand ↔ ¬ ∃ i, decode tx.word tx.sideband = .ok i := by
  unfold runTransaction
  cases decode tx.word tx.sideband with
  | ok i => simp [exec_ne_reservedCommand]
  | error r => simp

theorem step_of_command {s : State} {tx : Transaction} {rest : List Input} (h : s.stream = .command tx :: rest) :
    step s = runTransaction tx (s.setStream rest) := by
  simp [step, runNext, h, runInput]

/-- Settles O6: a step is refused as reserved exactly if the word does not decode, and decoding reads those fields. -/
theorem reservedWordsAreRefused : Obligations.ReservedWordsAreRefused := by
  intro s tx rest h
  rw [step_of_command h, runTransaction_eq_reservedCommand_iff, exists_decode_ok_iff_toNat]
  omega

/-! ### TICK's response word -/

@[simp] theorem State.report_responses (s : State) :
    s.report.responses = s.responses ++ [.word (statusCode s.status)] := rfl

/-- R50's table read from the response word: bit 1 says whether a train is being sent, bit 0 the carrier or the error. -/
def statusOfCode (rw : Word64) : Status :=
  if rw.getLsbD 1 then .transmit (rw.getLsbD 0)
  else if rw.getLsbD 0 then .error
  else .idle

theorem statusOfCode_statusCode : Function.LeftInverse statusOfCode statusCode
  | .idle => rfl
  | .transmit false => rfl
  | .transmit true => rfl
  | .error => rfl

/-- The code, as a number, tells the statuses apart. -/
theorem eq_iff_statusCode_toNat_eq (a b : Status) : a = b ↔ (statusCode a).toNat = (statusCode b).toNat := by
  rw [BitVec.toNat_inj, statusOfCode_statusCode.injective.eq_iff]

/-- The upper bits of a status code are zero (R50). -/
theorem statusCode_toNat_div_four : ∀ a : Status, (statusCode a).toNat / 4 = 0
  | .idle => rfl
  | .transmit false => rfl
  | .transmit true => rfl
  | .error => rfl

/-- The pin is high exactly if both low bits of the status code are set (R50, R90). -/
theorem pinLevel_eq_statusCode_bits :
    ∀ a : Status, pinLevel a = ((statusCode a).getLsbD 1 && (statusCode a).getLsbD 0)
  | .idle => rfl
  | .transmit false => rfl
  | .transmit true => rfl
  | .error => rfl

/-- Settles O23: the response is the code of the status that TICK leaves, and the code tells the statuses apart. -/
theorem tickResponseCodesTheStatus : Obligations.TickResponseCodesTheStatus := by
  intro s
  have hcode := eq_iff_statusCode_toNat_eq (s.setCounter s.nextCounter).status
  exact ⟨(s.setCounter s.nextCounter).report, statusCode (s.setCounter s.nextCounter).status, rfl,
    State.report_responses _, hcode .idle, hcode .error, hcode (.transmit false), hcode (.transmit true),
    statusCode_toNat_div_four _, pinLevel_eq_statusCode_bits _⟩

end Sys2Proof.Machine

/-! The encoder's contract (R59), and the LOAD that an idle block takes from an encoder that keeps it (R68, R69, R88). -/

namespace Sys2Proof.Machine

/-- Settles O19: the reported count is the minimum, which fits the window, so as many durations are written, a prefix of the
train. -/
theorem encoderWritesTheMinimum : Obligations.EncoderWritesTheMinimum := by
  intro e cmd w he
  have hcount := reportedCount_of_keepsContract he cmd w
  exact ⟨hcount, (encoded_length (reportedCount_le he cmd w)).trans hcount,
    fun k hk => (List.getElem?_eq_getElem hk).trans
      (List.prefix_iff_getElem?.mp (encoded_prefix e cmd w) k hk).symm⟩

/-- While idle, a LOAD whose count fits the window appends what its encoder writes and restarts the counter (R68, R88). -/
theorem exec_load_of_fits {s : State} {sel : BitVec 4} {cmd : Cmd} {e : Encoder} (he : encoderAt s.cfg sel = some e)
    (hidle : s.status = .idle) (hfit : reportedCount e cmd s.window ≤ s.window) :
    exec (.load sel cmd) s = .next ((s.append (encoded e cmd s.window)).setCounter 0) := by
  change execLoad sel cmd s = _
  rcases execLoad_cases sel cmd s with ⟨hnone, -⟩ | ⟨e', he', ⟨hbusy, -⟩ | ⟨-, -, hnext⟩ | ⟨-, hover, -⟩⟩
  · simp [he] at hnone
  all_goals obtain rfl : e = e' := Option.some.inj (he.symm.trans he')
  · exact absurd hidle hbusy
  · exact hnext
  · exact absurd hfit (Nat.not_le.mpr hover)

/-- An idle LOAD from an encoder that keeps its contract appends the prefix of the train that fits (R69). -/
theorem exec_load_of_keepsContract {s : State} {sel : BitVec 4} {cmd : Cmd} {e : Encoder}
    (he : encoderAt s.cfg sel = some e) (hkeeps : KeepsContract e) (hidle : s.status = .idle) :
    exec (.load sel cmd) s = .next ((s.append ((train e cmd).take s.window)).setCounter 0) := by
  rw [exec_load_of_fits he hidle (reportedCount_le hkeeps cmd s.window), encoded_of_keepsContract hkeeps]

/-- The slots from the old cursor on hold the durations of an append in order (R68). -/
theorem append_read_inside (s : State) (ds : List Word) {k : Nat} (hk : k < ds.length) :
    (s.append ds).storage.read (s.cursor.toNat + k) = ds[k] :=
  s.storage.read_writeAll_inside s.cursor.toNat ds hk

/-- Frame: an append that fits writes only slots between the old cursor and the new one (R68). -/
theorem append_read_outside {s : State} {ds : List Word} (h : ds.length ≤ s.window) {i : Nat}
    (hi : i < s.cursor.toNat ∨ (s.append ds).cursor.toNat ≤ i) :
    (s.append ds).storage.read i = s.storage.read i := by
  rw [append_cursor_toNat h] at hi
  rcases hi with hbelow | habove
  · exact s.storage.read_writeAll_below ds hbelow
  · exact s.storage.read_writeAll_above ds habove

/-- Settles O18: the LOAD is the append of the fitting prefix with the counter restarted, and an append that fits moves the
cursor, the buffer and the slots by that prefix alone. -/
theorem idleLoadAppendsThePrefixThatFits : Obligations.IdleLoadAppendsThePrefixThatFits := by
  intro s sel cmd e he hkeeps hidle
  have hfit : ((train e cmd).take s.window).length ≤ s.window := List.length_take_le _ _
  refine ⟨_, exec_load_of_keepsContract he hkeeps hidle, ?cursor, append_buf hfit, ?inside,
    fun i hi => append_read_outside hfit hi, rfl, rfl, rfl, rfl, rfl, rfl⟩
  case cursor => exact (append_cursor_toNat hfit).trans (congrArg (s.cursor.toNat + ·) List.length_take)
  case inside =>
    intro k hk hw
    have hk' : k < ((train e cmd).take s.window).length := List.length_take ▸ lt_min hw hk
    exact (append_read_inside s _ hk').trans List.getElem_take

end Sys2Proof.Machine

/-! The status by the rules R74, R78 and R84, and the TICK that reports it. -/

namespace Sys2Proof.Machine

/-! ### The malformed trains and the status they get -/

theorem zero_mem_iff_exists_toNat (buf : List Word) : 0#32 ∈ buf ↔ ∃ d ∈ buf, d.toNat = 0 := by
  refine ⟨fun h => ⟨0#32, h, rfl⟩, ?_⟩
  rintro ⟨d, hd, hzero⟩
  obtain rfl : d = 0#32 := BitVec.eq_of_toNat_eq hzero
  exact hd

/-- A train is malformed exactly if it has a zero duration (E-ZERO) or is too long for the counter (E-LONG, R78). -/
theorem not_wellTimed_iff {W : Nat} {buf : List Word} :
    ¬ WellTimed W buf ↔ (∃ d ∈ buf, d.toNat = 0) ∨ 2 ^ W - 2 < (buf.map BitVec.toNat).sum := by
  rw [WellTimed, Classical.not_and_iff_not_or_not, not_not, not_le, zero_mem_iff_exists_toNat, total]

theorem status_eq_error_iff {W : Nat} {buf : List Word} {e : Nat} :
    status W buf e = .error ↔ buf ≠ [] ∧ ¬ WellTimed W buf := by
  refine ⟨fun h => ?_, fun ⟨hne, hbad⟩ => status_of_malformed e hne hbad⟩
  rcases status_cases W buf e with ⟨-, hst⟩ | ⟨hne, hbad, -⟩ | ⟨-, -, -, hst⟩ | ⟨-, _, -, -, -, hst⟩
  case inr.inl => exact ⟨hne, hbad⟩
  all_goals simp [hst] at h

/-- Settles O30: each clause is the status of one kind of train, and the least segment whose end reaches the elapsed value
begins before it. -/
theorem statusFollowsTheRule : Obligations.StatusFollowsTheRule := by
  intro W buf e
  refine ⟨?empty, fun hne hbad => status_of_malformed e hne (not_wellTimed_iff.mpr hbad),
    fun _ hpos hlen => ?wellTimed⟩
  case empty =>
    rintro rfl
    exact status_nil W e
  case wellTimed =>
    have hw : WellTimed W buf := by
      by_contra hbad
      rcases not_wellTimed_iff.mp hbad with ⟨d, hd, hzero⟩ | hlong
      · exact hpos d hd hzero
      · exact absurd hlen (Nat.not_le.mpr hlong)
    refine ⟨status_past_end hw, fun i hi hup hleast => status_in_segment hw hi hup ?_⟩
    cases i with
    | zero => exact .inr rfl
    | succ k => exact .inl (hleast k k.lt_succ_self)

/-! ### The TICK that reports a status -/

@[simp] theorem State.setCounter_status (s : State) (v : Nat) :
    (s.setCounter v).status = Machine.status s.cfg.width s.buf v := rfl

theorem exec_tick_eq_report (s : State) : exec .tick s = .next (s.setCounter s.nextCounter).report := rfl

/-- Settles O31: among all statuses only a malformed train's is `Error`, and a TICK drives the pin low for it. -/
theorem errorExactlyForMalformedTrains : Obligations.ErrorExactlyForMalformedTrains := by
  refine ⟨fun W buf e => by rw [status_eq_error_iff, not_wellTimed_iff], fun s hne hbad => ?_⟩
  have herr : (s.setCounter s.nextCounter).status = .error :=
    status_eq_error_iff.mpr ⟨hne, not_wellTimed_iff.mpr hbad⟩
  exact ⟨_, exec_tick_eq_report s, by rw [State.report_status, herr], by rw [State.report_pinEn, herr]; rfl⟩

/-! ### The first mark and the wrap -/

/-- The elapsed values from 0 to the first duration lie in segment 0, a mark (R77, R84). -/
theorem status_first_mark {W e : Nat} {d : Word} {ds : List Word} (h : WellTimed W (d :: ds)) (he : e ≤ d.toNat) :
    status W (d :: ds) e = .transmit true :=
  status_in_segment h (Nat.zero_lt_succ _) (by simpa [boundary_cons_succ] using he) (.inr rfl)

theorem status_at_zero {W : Nat} {buf : List Word} (hne : buf ≠ []) (h : WellTimed W buf) :
    status W buf 0 = .transmit true := by
  cases buf with
  | nil => exact absurd rfl hne
  | cons d ds => exact status_first_mark h d.toNat.zero_le

theorem State.nextCounter_of_wrap {s : State} (h : s.counter + 1 = 2 ^ s.cfg.width) : s.nextCounter = 0 := by
  rw [State.nextCounter, h, Nat.mod_self]

/-- Settles O34: segment 0 reaches down to 0, the elapsed value to which the counter wraps, and the segments after it
alternate. -/
theorem wrapToZeroIsTheFirstMark : Obligations.WrapToZeroIsTheFirstMark := by
  refine ⟨fun W d ds e hw => ⟨status_first_mark hw, fun i hi hlow hup => ?later⟩, fun s hne hw hwrap => ?wrap⟩
  case later =>
    have hparity : ((i + 1) % 2 == 0) = (i % 2 == 1) := by
      rw [Bool.eq_iff_iff, beq_iff_eq, beq_iff_eq, Nat.succ_mod_two_eq_zero_iff]
    rw [status_in_segment hw (Nat.succ_lt_succ hi) hup (.inl hlow), hparity]
  case wrap =>
    have hzero := State.nextCounter_of_wrap hwrap
    have hmark : (s.setCounter s.nextCounter).status = .transmit true := by
      rw [hzero]
      exact status_at_zero hne hw
    exact ⟨_, exec_tick_eq_report s, hzero, by rw [State.report_pinEn, hmark]; rfl,
      by rw [State.report_responses, hmark]; rfl⟩

end Sys2Proof.Machine

/-! The commands one by one: NEW and RESET, which empty the block (R86, R91), LOAD's refusal (R87), TICK (R89), and the three
reads (R92 to R94). -/

namespace Sys2Proof.Machine

/-! ### The empty buffer that NEW and RESET leave -/

theorem State.status_of_buf_nil {s : State} (h : s.buf = []) : s.status = .idle := by
  rw [State.status, h, status_nil]

/-- With an empty buffer a TICK answers `Idle` and drives the pin low, whatever the counter is (R74, R89). -/
theorem exec_tick_of_buf_nil {s : State} (h : s.buf = []) :
    exec .tick s = .next (((s.setCounter s.nextCounter).drivePin false).respond (.word 0)) := by
  have hidle : (s.setCounter s.nextCounter).status = .idle := State.status_of_buf_nil h
  rw [exec_tick_eq_report, State.report, hidle]
  rfl

@[simp] theorem State.pbReset_window (s : State) : s.pbReset.window = s.cfg.capacity.toNat := rfl

theorem State.pbReset_of_empty {s : State} (h : s.cursor = 0) : s.pbReset = s := by
  rw [State.pbReset, ← h]

/-- After a RESET the whole block is the window: a LOAD leaves the prefix of its train that fits the capacity (R69, R91). -/
theorem exec_load_pbReset {s : State} {sel : BitVec 4} {cmd : Cmd} {e : Encoder} (he : encoderAt s.cfg sel = some e)
    (hkeeps : KeepsContract e) :
    ∃ t, exec (.load sel cmd) s.pbReset = .next t ∧ t.counter = 0 ∧
      t.buf = (train e cmd).take s.cfg.capacity.toNat := by
  refine ⟨_, exec_load_of_keepsContract he hkeeps (State.status_of_buf_nil s.pbReset_buf), rfl, ?_⟩
  rw [State.setCounter_buf, append_buf (List.length_take_le _ _), State.pbReset_buf, State.pbReset_window,
    List.nil_append]

/-- Settles O15: RESET is PB_RESET, which leaves an empty buffer: idle, with the whole capacity as window. -/
theorem resetDiscardsTheBuffer : Obligations.ResetDiscardsTheBuffer := by
  intro s
  exact ⟨rfl, State.status_of_buf_nil s.pbReset_buf, fun sel cmd e he hkeeps => exec_load_pbReset he hkeeps,
    ⟨_, exec_tick_of_buf_nil s.pbReset_buf, rfl, rfl⟩, fun h => congrArg Host.Outcome.next (State.pbReset_of_empty h)⟩

/-- With an empty buffer LEN answers 0 (R93). -/
theorem exec_len_of_empty {s : State} (h : s.cursor = 0) : exec .len s = .next (s.respond (.word 0)) := by
  change Host.Outcome.next (s.respond (.word (lengthCode s.cursor))) = _
  rw [h, show lengthCode 0 = 0 by decide]

/-- Settles O14: NEW empties the buffer, and every other value it leaves is one that it writes whatever the state. -/
theorem newEmptiesTheBlock : Obligations.NewEmptiesTheBlock := by
  intro s
  exact ⟨(s.pbNew.setCounter 0).drivePin false, rfl, rfl, rfl, rfl, rfl, rfl, rfl, rfl,
    State.status_of_buf_nil s.pbNew_buf, exec_len_of_empty rfl, _, rfl, rfl, rfl, rfl⟩

/-! ### LOAD's refusal -/

/-- Settles O16: with a present encoder a LOAD is ignored, appends or faults, and is never refused. -/
theorem loadIsRefusedExactlyWithoutEncoder : Obligations.LoadIsRefusedExactlyWithoutEncoder := by
  intro s sel cmd
  change execLoad sel cmd s = _ ↔ encoderAt s.cfg sel = none
  rcases execLoad_cases sel cmd s with ⟨hnone, h⟩ | ⟨e, he, ⟨-, h⟩ | ⟨-, -, h⟩ | ⟨-, -, h⟩⟩
  · simp [h, hnone]
  all_goals simp [h, he]

/-! ### TICK -/

theorem pinLevel_eq_decide (st : Status) : pinLevel st = decide (st = .transmit true) := by
  rw [Bool.eq_iff_iff, pinLevel_eq_true_iff, decide_eq_true_iff]

/-- Settles O22: the report's pin level is high for `Transmit(true)` alone, at the counter that has advanced. -/
theorem tickAdvancesAndReports : Obligations.TickAdvancesAndReports := by
  intro s
  rw [exec_tick_eq_report, State.report, pinLevel_eq_decide]
  rfl

/-! ### GET, LEN and BUFFER -/

theorem optionCode_some_toNat (v : Word) : (optionCode (some v)).toNat = 2 ^ 32 + v.toNat :=
  append_toNat 1#32 v

theorem lengthCode_toNat (n : Word) : (lengthCode n).toNat = n.toNat :=
  (append_toNat 0#32 n).trans (by simp)

theorem State.pbGet_below {s : State} {i : Nat} (h : i < s.cursor.toNat) : s.pbGet i = some (s.storage.read i) :=
  if_pos h

theorem State.pbGet_at_or_above {s : State} {i : Nat} (h : s.cursor.toNat ≤ i) : s.pbGet i = none :=
  if_neg (Nat.not_lt.mpr h)

theorem State.buf_getElem (s : State) {k : Nat} (h : k < s.buf.length) : s.buf[k] = s.storage.read k := by
  simp [State.buf]

/-- Settles O26: GET answers the code of PB_GET's option, which is `Some` exactly below the cursor. -/
theorem getAnswersTheDurationOrNone : Obligations.GetAnswersTheDurationOrNone := by
  intro s index
  refine ⟨optionCode (s.pbGet index.toNat), rfl, fun hbelow => ?_, fun habove => ?_⟩
  · rw [State.pbGet_below hbelow, optionCode_some_toNat]
  · rw [State.pbGet_at_or_above habove]
    rfl

/-- Settles O27: LEN's word is the cursor under a zero upper half. -/
theorem lenAnswersTheCursor : Obligations.LenAnswersTheCursor := fun s =>
  ⟨lengthCode s.cursor, rfl, lengthCode_toNat s.cursor⟩

/-- Settles O28: BUFFER answers `buf`, the slots below the cursor in order. -/
theorem bufferAnswersTheValidDurations : Obligations.BufferAnswersTheValidDurations := fun s =>
  ⟨s.buf, rfl, s.buf_length, fun _ h => s.buf_getElem h⟩

end Sys2Proof.Machine

/-! The LOAD that a busy block ignores (R88, R95, R103). -/

namespace Sys2Proof.Machine

/-- Unless the status is idle, a LOAD that names a present encoder is a silent no-op (R88, R95). -/
theorem exec_load_of_not_idle {s : State} {sel : BitVec 4} {cmd : Cmd} {e : Encoder}
    (he : encoderAt s.cfg sel = some e) (hbusy : s.status ≠ .idle) : exec (.load sel cmd) s = .next s := by
  change execLoad sel cmd s = _
  rcases execLoad_cases sel cmd s with ⟨hnone, -⟩ | ⟨_, -, ⟨-, hnext⟩ | ⟨hidle, -⟩ | ⟨hidle, -⟩⟩
  · simp [he] at hnone
  · exact hnext
  all_goals exact absurd hidle hbusy

/-- Settles O17: neither `Error` nor `Transmit(_)` is the idle status, so the gate of R88 stays shut. -/
theorem busyLoadChangesNothing : Obligations.BusyLoadChangesNothing := by
  intro s sel cmd e he hst
  have hbusy : s.status ≠ .idle := by
    rcases hst with herr | ⟨c, hsend⟩
    · simp [herr]
    · simp [hsend]
  exact exec_load_of_not_idle he hbusy

end Sys2Proof.Machine

/-! Encodings: a word decodes to a command exactly if it is the command's encoding (R43 to R49), so decoder, encoder and
opcode table agree; the fields of an encoded word (R44) and the expansions of the pseudo-commands (R58). -/

namespace Sys2Proof

/-! ### Decoding and encoding -/

/-- The zero checks of R49 look at a word's fields, so of an assembled word they ask them of its parts. -/
theorem zerosHold_commandWord (usesSel usesArg : Bool) (op sel : BitVec 4) (arg : Word) :
    zerosHold usesSel usesArg (commandWord op sel arg) = ((usesSel || sel == 0) && (usesArg || arg == 0)) := by
  simp [zerosHold, reservedField_commandWord, selField_commandWord, argField_commandWord]

theorem decode_encode (i : Instr) : decode (encode i) (sidebandOf i) = .ok i := by
  cases i
  all_goals simp [encode, decode, sidebandOf, checked, zerosHold_commandWord, opField_commandWord,
    selField_commandWord, argField_commandWord]

/-- A word that passes the zero checks is assembled from its opcode and the operands that its command uses (R44, R49). -/
theorem commandWord_of_zerosHold {usesSel usesArg : Bool} {cw : Word64} {op : Nat}
    (hop : (opField cw).toNat = op) (h : zerosHold usesSel usesArg cw = true) :
    commandWord (BitVec.ofNat 4 op) (bif usesSel then selField cw else 0) (bif usesArg then argField cw else 0) = cw := by
  obtain ⟨hreserved, hsel, harg⟩ := (zerosHold_eq _ _ _).mp h
  have hsel' : (bif usesSel then selField cw else 0) = selField cw := by
    cases usesSel
    · exact (hsel.resolve_left Bool.false_ne_true).symm
    · rfl
  have harg' : (bif usesArg then argField cw else 0) = argField cw := by
    cases usesArg
    · exact (harg.resolve_left Bool.false_ne_true).symm
    · rfl
  rw [hsel', harg', ← hop, BitVec.ofNat_toNat, BitVec.setWidth_eq, commandWord_of_fields cw hreserved]

theorem encode_of_decode {cw : Word64} {sideband : Cmd} {i : Instr} (h : decode cw sideband = .ok i) :
    encode i = cw := by
  rcases decode_ok_cases h with ⟨hop, hz, rfl⟩ | ⟨hop, hz, rfl⟩ | ⟨hop, hz, rfl⟩ | ⟨hop, hz, rfl⟩ | ⟨hop, hz, rfl⟩ |
    ⟨hop, hz, rfl⟩ | ⟨hop, hz, rfl⟩
  all_goals exact (commandWord_of_zerosHold hop hz :)

/-- The decoder passes a LOAD's sideband on unchanged (R43). -/
theorem sideband_of_decode_load {cw : Word64} {sideband cmd : Cmd} {sel : BitVec 4}
    (h : decode cw sideband = .ok (.load sel cmd)) : cmd = sideband := by
  have hcases := decode_ok_cases h
  simp only [reduceCtorEq, and_false, false_or, or_false, Instr.load.injEq] at hcases
  obtain ⟨-, -, -, hcmd⟩ := hcases
  exact hcmd

/-- Settles O2: each constructor's word has its opcode and its operands in the fields that the decoder reads. -/
theorem decodeOfEncodeGivesTheCommand : Obligations.DecodeOfEncodeGivesTheCommand := decode_encode

/-- Settles O3: the zero checks leave nothing of the word but what the encoder writes. -/
theorem decodedWordIsTheEncoding : Obligations.DecodedWordIsTheEncoding := by
  intro cw sideband i h
  refine ⟨encode_of_decode h, fun sel cmd hi => ?_⟩
  subst hi
  exact sideband_of_decode_load h

/-! ### The opcode table -/

/-- The row of a command's mnemonic holds of its word, for every command. -/
theorem exists_row_of_encode (i : Instr) :
    ∃ r ∈ opcodeTable, r.mnemonic = i.mnemonic ∧ r.holds (encode i) = true := by
  cases i with
  | new => exact Laws.TableRow.new
  | load sel cmd => exact Laws.TableRow.load sel cmd
  | tick => exact Laws.TableRow.tick
  | reset => exact Laws.TableRow.reset
  | get index => exact Laws.TableRow.get index
  | len => exact Laws.TableRow.len
  | buffer => exact Laws.TableRow.buffer

/-- A row that holds of a word fixes each field of the word under that field of its mask. -/
theorem Row.fields_of_holds {r : Row} {cw : Word64} (h : r.holds cw = true) :
    opField cw &&& opField r.mask = opField r.value ∧ selField cw &&& selField r.mask = selField r.value ∧
    reservedField cw &&& reservedField r.mask = reservedField r.value ∧
    argField cw &&& argField r.mask = argField r.value := by
  have hmask : cw &&& r.mask = r.value := beq_iff_eq.mp h
  rw [← hmask]
  simp only [opField, selField, reservedField, argField, BitVec.extractLsb'_and, and_self]

/-- Every row fixes an opcode from 1 to 7, the reserved field as zero, `sel` as zero outside LOAD and `arg` as zero outside GET
(R46, R49). -/
theorem opcodeTable_fields : ∀ r ∈ opcodeTable,
    (opField r.mask = BitVec.allOnes 4 ∧ 0 < (opField r.value).toNat ∧ (opField r.value).toNat < 8) ∧
    (reservedField r.mask = BitVec.allOnes 24 ∧ reservedField r.value = 0) ∧
    (opField r.value = 2 ∨ selField r.mask = BitVec.allOnes 4 ∧ selField r.value = 0) ∧
    (opField r.value = 5 ∨ argField r.mask = BitVec.allOnes 32 ∧ argField r.value = 0) := by
  decide

theorem mnemonic_eq_of_opField_eq : ∀ r ∈ opcodeTable, ∀ q ∈ opcodeTable,
    opField r.value = opField q.value → r.mnemonic = q.mnemonic := by
  decide

theorem opField_of_holds {r : Row} (hr : r ∈ opcodeTable) {cw : Word64} (h : r.holds cw = true) :
    opField cw = opField r.value := by
  obtain ⟨⟨hmask, -⟩, -⟩ := opcodeTable_fields r hr
  obtain ⟨hop, -⟩ := Row.fields_of_holds h
  rwa [hmask, BitVec.and_allOnes] at hop

/-- A word that a row of the table holds of decodes to some command. -/
theorem exists_decode_of_holds {r : Row} (hr : r ∈ opcodeTable) {cw : Word64} (h : r.holds cw = true) (sideband : Cmd) :
    ∃ i, decode cw sideband = .ok i := by
  obtain ⟨⟨-, hpos, hlt⟩, ⟨hresMask, hresValue⟩, hselRow, hargRow⟩ := opcodeTable_fields r hr
  obtain ⟨-, hsel, hres, harg⟩ := Row.fields_of_holds h
  rw [exists_decode_ok_iff, zerosHold_eq, beq_iff_eq, beq_iff_eq, opField_of_holds hr h]
  refine ⟨⟨hpos, hlt⟩, ?reserved, hselRow.imp ?load ?noSel, hargRow.imp ?get ?noArg⟩
  case reserved => rwa [hresMask, hresValue, BitVec.and_allOnes] at hres
  case load => exact congrArg BitVec.toNat
  case get => exact congrArg BitVec.toNat
  case noSel =>
    rintro ⟨hmask, hvalue⟩
    rwa [hmask, hvalue, BitVec.and_allOnes] at hsel
  case noArg =>
    rintro ⟨hmask, hvalue⟩
    rwa [hmask, hvalue, BitVec.and_allOnes] at harg

/-- Settles O5: a decoded word is its command's encoding, whose row holds; and a row that holds fixes the opcode, hence the
mnemonic. -/
theorem tableRowSelectsTheCommand : Obligations.TableRowSelectsTheCommand := by
  intro cw sideband m
  constructor
  · rintro ⟨i, hdec, rfl⟩
    exact encode_of_decode hdec ▸ exists_row_of_encode i
  · rintro ⟨r, hr, rfl, hholds⟩
    obtain ⟨i, hdec⟩ := exists_decode_of_holds hr hholds sideband
    obtain ⟨q, hq, hname, hqholds⟩ := exists_row_of_encode i
    rw [encode_of_decode hdec] at hqholds
    have hop : opField q.value = opField r.value := (opField_of_holds hq hqholds).symm.trans (opField_of_holds hr hholds)
    exact ⟨i, hdec, hname.symm.trans (mnemonic_eq_of_opField_eq q hq r hr hop)⟩

/-! ### The vectors and the format -/

/-- Settles O1: the decoder computes each listed result. -/
theorem listedWordsDecodeAsListed : Obligations.ListedWordsDecodeAsListed := by
  unfold Obligations.ListedWordsDecodeAsListed
  and_intros
  all_goals decide

/-- Settles O4: the encoder writes its fields by `commandWord`, whose number is the weighted sum of the fields. -/
theorem encodedWordHasItsFieldsInPlace : Obligations.EncodedWordHasItsFieldsInPlace := by
  refine ⟨?_, fun _ _ => ?_, ?_, ?_, fun _ => ?_, ?_, ?_⟩
  all_goals simp [encode, commandWord_toNat]

end Sys2Proof

namespace Sys2Proof.Machine

/-- Settles O44: ABORT and RELOAD expand by definition, and TICKS to a list of copies of TICK. -/
theorem pseudoCommandsExpandAsListed : Obligations.PseudoCommandsExpandAsListed :=
  ⟨rfl, fun _ _ => rfl, fun _ => ⟨List.length_replicate, fun _ hi => List.eq_of_mem_replicate hi⟩⟩

end Sys2Proof.Machine

/-! LOAD's outcomes one by one, what a LOAD that is taken leaves (R88), loads of the Pulse Buffer one after another (R70), and the
commands that stop (R87, R62). -/

namespace Sys2Proof.Machine

theorem exec_load_of_absent {s : State} {sel : BitVec 4} {cmd : Cmd} (h : encoderAt s.cfg sel = none) :
    exec (.load sel cmd) s = .refused .noSuchEncoder :=
  (loadIsRefusedExactlyWithoutEncoder s sel cmd).mpr h

/-- While idle, a LOAD whose encoder reports more than its window holds faults (R62). -/
theorem exec_load_of_overrun {s : State} {sel : BitVec 4} {cmd : Cmd} {e : Encoder} (he : encoderAt s.cfg sel = some e)
    (hidle : s.status = .idle) (hover : s.window < reportedCount e cmd s.window) :
    exec (.load sel cmd) s = .fault .encoderOverrun := by
  change execLoad sel cmd s = _
  rcases execLoad_cases sel cmd s with ⟨hnone, -⟩ | ⟨e', he', ⟨hbusy, -⟩ | ⟨-, hfit, -⟩ | ⟨-, -, hfault⟩⟩
  · simp [he] at hnone
  all_goals obtain rfl : e = e' := Option.some.inj (he.symm.trans he')
  · exact absurd hidle hbusy
  · exact absurd hfit (Nat.not_le.mpr hover)
  · exact hfault

/-- The count of a LOAD that completes while idle fits the window. -/
theorem reportedCount_le_of_exec_load {s t : State} {sel : BitVec 4} {cmd : Cmd} {e : Encoder}
    (he : encoderAt s.cfg sel = some e) (hidle : s.status = .idle) (h : exec (.load sel cmd) s = .next t) :
    reportedCount e cmd s.window ≤ s.window := by
  by_contra hover
  rw [exec_load_of_overrun he hidle (Nat.lt_of_not_le hover)] at h
  cases h

/-- A LOAD that completes while idle has appended durations that fit the window (R68, R88). -/
theorem exec_load_next_of_idle {s t : State} {sel : BitVec 4} {cmd : Cmd} {e : Encoder}
    (he : encoderAt s.cfg sel = some e) (hidle : s.status = .idle) (h : exec (.load sel cmd) s = .next t) :
    (encoded e cmd s.window).length ≤ s.window ∧ t = (s.append (encoded e cmd s.window)).setCounter 0 := by
  have hfit := reportedCount_le_of_exec_load he hidle h
  rw [exec_load_of_fits he hidle hfit] at h
  cases h
  exact ⟨(encoded_length hfit).trans_le hfit, rfl⟩

/-- Settles O20: the overrun faults; a count that fits is the length of the prefix that is appended. -/
theorem idleLoadAppendsTheReportOrFaults : Obligations.IdleLoadAppendsTheReportOrFaults := by
  intro s sel cmd e he hidle
  refine ⟨exec_load_of_overrun he hidle, fun hfit => ⟨le_min hfit (reportedCount_le_needed hfit), ?_⟩⟩
  have hlen : (encoded e cmd s.window).length = reportedCount e cmd s.window := encoded_length hfit
  have hle : (encoded e cmd s.window).length ≤ s.window := hlen.trans_le hfit
  exact ⟨_, exec_load_of_fits he hidle hfit, append_buf hle, hlen ▸ append_cursor_toNat hle, rfl,
    fun i hi => append_read_outside hle hi, rfl, rfl, rfl, rfl, rfl⟩

/-- Settles O53: both LOADs append prefixes of the one train of the entry and the command. -/
theorem equalLoadsPresentTheSameTrain : Obligations.EqualLoadsPresentTheSameTrain := by
  intro s s' t t' sel sel' cmd e he he' hidle hidle' h h'
  obtain ⟨hle, rfl⟩ := exec_load_next_of_idle he hidle h
  obtain ⟨hle', rfl⟩ := exec_load_next_of_idle he' hidle' h'
  exact ⟨_, _, append_buf hle, append_buf hle',
    List.prefix_or_prefix_of_prefix (encoded_prefix e cmd _) (encoded_prefix e cmd _)⟩

/-! ### Loads of the Pulse Buffer one after another (R70) -/

theorem append_window {s : State} {ds : List Word} (h : ds.length ≤ s.window) :
    (s.append ds).window = s.window - ds.length := by
  rw [State.window, append_cursor_toNat h, State.append_cfg, Nat.sub_add_eq, State.window]

/-- A train that fits the window is loaded whole. -/
theorem pbLoad_of_train_fits {s : State} {e : Encoder} {cmd : Cmd} (hkeeps : KeepsContract e)
    (hfit : (train e cmd).length ≤ s.window) : s.pbLoad e cmd = .next (s.append (train e cmd)) := by
  have hle := reportedCount_le hkeeps cmd s.window
  rcases pbLoad_eq s e cmd with ⟨-, h⟩ | ⟨hover, -⟩
  · rw [h, encoded_of_keepsContract hkeeps, List.take_of_length_le hfit]
  · exact absurd hle (Nat.not_le.mpr hover)

theorem pbLoadAll_cons_next {s t : State} {e : Encoder} {cmd : Cmd} (h : s.pbLoad e cmd = .next t)
    (rest : List (Encoder × Cmd)) : pbLoadAll ((e, cmd) :: rest) s = pbLoadAll rest t := by
  simp [pbLoadAll, h]

/-- Settles O21: by induction on the loads, each of which fits the window that the loads before it leave. -/
theorem loadsWithinCapacityConcatenate : Obligations.LoadsWithinCapacityConcatenate := by
  intro loads
  induction loads with
  | nil => intro s _ _; exact ⟨s, rfl, by simp, by simp, rfl, rfl, rfl⟩
  | cons p rest ih =>
    obtain ⟨e, cmd⟩ := p
    intro s hkeeps hsum
    change _ ≤ s.window at hsum
    simp only [List.map_cons, List.sum_cons] at hsum
    have hfit : (train e cmd).length ≤ s.window := by omega
    obtain ⟨t, hrun, hbuf, hcursor, hcounter, hpin, hresp⟩ :=
      ih (s.append (train e cmd)) (fun q hq => hkeeps q (List.mem_cons_of_mem _ hq)) (by
        rw [← State.window, append_window hfit]
        omega)
    refine ⟨t, ?_, ?_, ?_, hcounter, hpin, hresp⟩
    · rw [pbLoadAll_cons_next (pbLoad_of_train_fits (hkeeps _ List.mem_cons_self) hfit), hrun]
    · rw [hbuf, append_buf hfit, List.flatMap_cons, List.append_assoc]
    · rw [hcursor, append_cursor_toNat hfit, List.map_cons, List.sum_cons, Nat.add_assoc]

/-! ### The commands that stop (R87, R62) -/

/-- No command but LOAD stops. -/
theorem exec_next_of_ne_load {i : Instr} (h : ∀ sel cmd, i ≠ .load sel cmd) (s : State) : ∃ t, exec i s = .next t := by
  cases i with
  | load sel cmd => exact absurd rfl (h sel cmd)
  | new => exact ⟨_, rfl⟩
  | tick => exact ⟨_, rfl⟩
  | reset => exact ⟨_, rfl⟩
  | get index => exact ⟨_, rfl⟩
  | len => exact ⟨_, rfl⟩
  | buffer => exact ⟨_, rfl⟩

theorem exec_load_eq_refused_iff {s : State} {sel : BitVec 4} {cmd : Cmd} {r : Refusal} :
    exec (.load sel cmd) s = .refused r ↔ r = .noSuchEncoder ∧ encoderAt s.cfg sel = none := by
  change execLoad sel cmd s = _ ↔ _
  rcases execLoad_cases sel cmd s with ⟨hnone, h⟩ | ⟨e, he, ⟨-, h⟩ | ⟨-, -, h⟩ | ⟨-, -, h⟩⟩
  · simp [h, hnone, eq_comm]
  all_goals simp [h, he]

theorem exec_load_eq_fault_iff {s : State} {sel : BitVec 4} {cmd : Cmd} {r : Fault} :
    exec (.load sel cmd) s = .fault r ↔ r = .encoderOverrun ∧
      ∃ e, encoderAt s.cfg sel = some e ∧ s.status = .idle ∧ s.window < reportedCount e cmd s.window := by
  change execLoad sel cmd s = _ ↔ _
  rcases execLoad_cases sel cmd s with ⟨hnone, h⟩ | ⟨e, he, ⟨hbusy, h⟩ | ⟨hidle, hfit, h⟩ | ⟨hidle, hover, h⟩⟩
  · simp [h, hnone]
  · simp [h, he, hbusy]
  · simp [h, he, hidle, Nat.not_lt.mpr hfit]
  · simp [h, he, hidle, hover]

/-- Settles O48: LOAD's refusal and fault by their equivalences; every other command completes. -/
theorem stopsAreExactlyTheNamedOnes : Obligations.StopsAreExactlyTheNamedOnes := by
  intro i s
  by_cases hload : ∃ sel cmd, i = .load sel cmd
  · obtain ⟨sel, cmd, rfl⟩ := hload
    exact ⟨fun r => by rw [exec_load_eq_refused_iff]; simp, fun r => by rw [exec_load_eq_fault_iff]; simp⟩
  · obtain ⟨t, h⟩ := exec_next_of_ne_load (fun sel cmd hi => hload ⟨sel, cmd, hi⟩) s
    refine ⟨fun r => ?_, fun r => ?_⟩
    · simp only [h, reduceCtorEq, false_iff]
      rintro ⟨-, sel, cmd, hi, -⟩
      exact hload ⟨sel, cmd, hi⟩
    · simp only [h, reduceCtorEq, false_iff]
      rintro ⟨-, sel, cmd, _, hi, -⟩
      exact hload ⟨sel, cmd, hi⟩

end Sys2Proof.Machine

/-! The step (R35, R85, R113, R114), what each command leaves unchanged (R34, R39, R95 to R97, the summary table of
42_commands.md), and the counter (R17). -/

namespace Sys2Proof.Machine

/-! ### The step -/

theorem runTransaction_of_decode {tx : Transaction} {i : Instr} (h : decode tx.word tx.sideband = .ok i) (s : State) :
    runTransaction tx s = exec i s := by
  rw [runTransaction, h]

theorem step_of_stream_nil {s : State} (h : s.stream = []) : step s = .next s := by
  rw [step, runNext, h]

theorem step_of_resetInput {s : State} {rest : List Input} (h : s.stream = .resetInput :: rest) :
    step s = exec .new (s.setStream rest) := by
  rw [step, runNext, h]
  rfl

theorem step_of_decode {s : State} {tx : Transaction} {rest : List Input} {i : Instr}
    (h : s.stream = .command tx :: rest) (hdec : decode tx.word tx.sideband = .ok i) :
    step s = exec i (s.setStream rest) := by
  rw [step_of_command h, runTransaction_of_decode hdec]

/-- Settles O7: the step runs the transaction, whose word decodes. -/
theorem stepRunsTheDecodedCommand : Obligations.StepRunsTheDecodedCommand :=
  fun _ _ _ _ h hdec => step_of_decode h hdec

/-- Settles O8: an empty stream is the waiting branch of the step. -/
theorem stepWaitsWhileNothingIsPending : Obligations.StepWaitsWhileNothingIsPending :=
  fun _ h => step_of_stream_nil h

/-- Settles O13: a transaction runs by its word and its sideband alone. -/
theorem issuerMakesNoDifference : Obligations.IssuerMakesNoDifference := by
  intro s tx who rest
  rw [step_of_command rfl, step_of_command rfl]
  rfl

/-- Settles O9: both inputs run NEW in the state without them. -/
theorem newAndResetInputLeaveTheResetState : Obligations.NewAndResetInputLeaveTheResetState := by
  intro s input rest hinput hs
  have hstep : step s = exec .new (s.setStream rest) := by
    rcases hinput with rfl | ⟨tx, rfl, hdec⟩
    · exact step_of_resetInput hs
    · exact step_of_decode hs hdec
  exact ⟨_, hstep, rfl, rfl, rfl, rfl, State.status_of_buf_nil rfl, rfl, rfl, rfl⟩

/-- Settles O10: the reset state is written out with these values, and the built configuration with `W = 32`. -/
theorem resetStateHoldsTheResetValues : Obligations.ResetStateHoldsTheResetValues :=
  ⟨fun _ => ⟨rfl, rfl, rfl, State.status_of_buf_nil rfl, rfl, rfl, rfl, rfl⟩, rfl, rfl⟩

/-! ### Frames: the stream, the responses and the buffer -/

@[simp] theorem State.report_stream (s : State) : s.report.stream = s.stream := rfl
@[simp] theorem State.report_cursor (s : State) : s.report.cursor = s.cursor := rfl
@[simp] theorem State.report_storage (s : State) : s.report.storage = s.storage := rfl
@[simp] theorem State.report_counter (s : State) : s.report.counter = s.counter := rfl

/-- Frame: no command touches what waits in the stream (R35). -/
theorem exec_next_stream {i : Instr} {s t : State} (h : exec i s = .next t) : t.stream = s.stream := by
  rcases exec_next_cases h with ⟨-, rfl⟩ | ⟨_, _, -, -, rfl⟩ | ⟨_, _, _, -, -, -, -, rfl⟩ | ⟨-, rfl⟩ | ⟨-, rfl⟩ |
    ⟨_, -, rfl⟩ | ⟨-, rfl⟩ | ⟨-, rfl⟩
  all_goals simp

/-- Settles O11: a step takes the head of the stream, and no command touches what is left. -/
theorem streamIsTakenInOrder : Obligations.StreamIsTakenInOrder := by
  intro s t h
  rcases step_next_cases h with ⟨hs, rfl⟩ | ⟨_, rest, i, hs, -, hexec⟩ | ⟨rest, hs, hexec⟩
  · rw [hs, List.tail_nil]
  · rw [hs, List.tail_cons, exec_next_stream hexec, State.setStream_stream]
  · rw [hs, List.tail_cons, exec_next_stream hexec, State.setStream_stream]

/-- Frame: only TICK, LEN, BUFFER and GET answer (R97). -/
theorem exec_next_responses {i : Instr} {s t : State} (h : exec i s = .next t) :
    i = .tick ∨ i = .len ∨ i = .buffer ∨ (∃ index, i = .get index) ∨ t.responses = s.responses := by
  rcases exec_next_cases h with ⟨rfl, rfl⟩ | ⟨_, _, rfl, -, rfl⟩ | ⟨_, _, _, rfl, -, -, -, rfl⟩ | ⟨rfl, rfl⟩ | ⟨rfl, rfl⟩ |
    ⟨_, rfl, rfl⟩ | ⟨rfl, rfl⟩ | ⟨rfl, rfl⟩
  all_goals simp

/-- Frame: only NEW, RESET and a LOAD that is taken write the cursor (R15). -/
theorem exec_next_cursor {i : Instr} {s t : State} (h : exec i s = .next t) :
    i = .new ∨ i = .reset ∨ ((∃ sel cmd, i = .load sel cmd) ∧ s.status = .idle) ∨ t.cursor = s.cursor := by
  rcases exec_next_cases h with ⟨rfl, rfl⟩ | ⟨_, _, rfl, -, rfl⟩ | ⟨_, _, _, rfl, -, hidle, -, rfl⟩ | ⟨rfl, rfl⟩ |
    ⟨rfl, rfl⟩ | ⟨_, rfl, rfl⟩ | ⟨rfl, rfl⟩ | ⟨rfl, rfl⟩
  case inr.inr.inl => exact .inr (.inr (.inl ⟨⟨_, _, rfl⟩, hidle⟩))
  all_goals simp

/-- Frame: only NEW and a LOAD that is taken write slots (R16, R64). -/
theorem exec_next_storage {i : Instr} {s t : State} (h : exec i s = .next t) :
    i = .new ∨ ((∃ sel cmd, i = .load sel cmd) ∧ s.status = .idle) ∨ t.storage = s.storage := by
  rcases exec_next_cases h with ⟨rfl, rfl⟩ | ⟨_, _, rfl, -, rfl⟩ | ⟨_, _, _, rfl, -, hidle, -, rfl⟩ | ⟨rfl, rfl⟩ |
    ⟨rfl, rfl⟩ | ⟨_, rfl, rfl⟩ | ⟨rfl, rfl⟩ | ⟨rfl, rfl⟩
  case inr.inr.inl => exact .inr (.inl ⟨⟨_, _, rfl⟩, hidle⟩)
  all_goals simp

/-- Frame: only NEW, TICK and a LOAD that is taken write the counter (R17). -/
theorem exec_next_counter {i : Instr} {s t : State} (h : exec i s = .next t) :
    i = .new ∨ i = .tick ∨ ((∃ sel cmd, i = .load sel cmd) ∧ s.status = .idle) ∨ t.counter = s.counter := by
  rcases exec_next_cases h with ⟨rfl, rfl⟩ | ⟨_, _, rfl, -, rfl⟩ | ⟨_, _, _, rfl, -, hidle, -, rfl⟩ | ⟨rfl, rfl⟩ |
    ⟨rfl, rfl⟩ | ⟨_, rfl, rfl⟩ | ⟨rfl, rfl⟩ | ⟨rfl, rfl⟩
  case inr.inr.inl => exact .inr (.inr (.inl ⟨⟨_, _, rfl⟩, hidle⟩))
  all_goals simp

/-- Settles O41: while busy, the frames of the cursor and of the slots leave NEW and RESET alone. -/
theorem onlyNewAndResetChangeABusyBuffer : Obligations.OnlyNewAndResetChangeABusyBuffer := by
  intro i s t hbusy h hkeeps
  have hcursor : t.cursor = s.cursor := by
    rcases exec_next_cursor h with rfl | rfl | ⟨-, hidle⟩ | hc
    · simp [emptiesBuffer] at hkeeps
    · simp [emptiesBuffer] at hkeeps
    · exact absurd hidle hbusy
    · exact hc
  have hstorage : t.storage = s.storage := by
    rcases exec_next_storage h with rfl | ⟨-, hidle⟩ | hm
    · simp [emptiesBuffer] at hkeeps
    · exact absurd hidle hbusy
    · exact hm
  exact ⟨by rw [State.buf, State.buf, hcursor, hstorage], hcursor, hstorage⟩

/-- Settles O40: `Error` does not depend on the counter, and while it lasts the buffer is kept (R39, R78). -/
theorem errorIsLeftOnlyByNewOrReset : Obligations.ErrorIsLeftOnlyByNewOrReset := by
  intro i s t herr h hkeeps
  obtain ⟨hbuf, -, -⟩ := onlyNewAndResetChangeABusyBuffer i s t (by simp [herr]) h hkeeps
  refine ⟨?_, hbuf⟩
  rw [State.status, status_eq_error_iff] at herr ⊢
  rwa [hbuf, exec_next_cfg h]

/-! ### A LOAD that completes, in any status -/

/-- The encoder of a LOAD that completes is present (R87). -/
theorem exists_encoder_of_exec_load {s t : State} {sel : BitVec 4} {cmd : Cmd} (h : exec (.load sel cmd) s = .next t) :
    ∃ e, encoderAt s.cfg sel = some e := by
  by_contra hnone
  rw [exec_load_of_absent (Option.eq_none_iff_forall_ne_some.mpr fun e he => hnone ⟨e, he⟩)] at h
  cases h

theorem exec_load_next_of_not_idle {s t : State} {sel : BitVec 4} {cmd : Cmd} (hbusy : s.status ≠ .idle)
    (h : exec (.load sel cmd) s = .next t) : t = s := by
  obtain ⟨e, he⟩ := exists_encoder_of_exec_load h
  rw [exec_load_of_not_idle he hbusy] at h
  cases h
  rfl

theorem exec_load_counter {s t : State} {sel : BitVec 4} {cmd : Cmd} (hidle : s.status = .idle)
    (h : exec (.load sel cmd) s = .next t) : t.counter = 0 := by
  obtain ⟨e, he⟩ := exists_encoder_of_exec_load h
  obtain ⟨-, rfl⟩ := exec_load_next_of_idle he hidle h
  rfl

/-- Settles O25: the counter that each command leaves, by the command. -/
theorem counterIsWrittenAsListed : Obligations.CounterIsWrittenAsListed := by
  intro i s t h
  refine ⟨?tick, ?new, ?load, ?others⟩
  case tick => rintro rfl; cases h; rfl
  case new => rintro rfl; cases h; rfl
  case load =>
    rintro sel cmd rfl
    exact ⟨fun hidle => exec_load_counter hidle h, fun hbusy => by rw [exec_load_next_of_not_idle hbusy h]⟩
  case others =>
    rintro (rfl | rfl | rfl | ⟨index, rfl⟩)
    all_goals simpa using exec_next_counter h

/-- Settles O47: the frames of the fields; the slots of a taken LOAD are those of an append. -/
theorem everyCommandKeepsWhatItDoesNotWrite : Obligations.EveryCommandKeepsWhatItDoesNotWrite := by
  intro i s t h
  refine ⟨exec_next_cfg h, exec_next_stream h, exec_next_cursor h, ?newCursor, ?slots, exec_next_counter h, ?pin,
    exec_next_responses h⟩
  case newCursor =>
    rintro sel cmd e rfl he hidle
    obtain ⟨hfit, rfl⟩ := exec_load_next_of_idle he hidle h
    exact append_cursor_toNat hfit
  case slots =>
    rcases exec_next_storage h with hnew | ⟨⟨sel, cmd, rfl⟩, hidle⟩ | hm
    · exact .inl hnew
    · obtain ⟨e, he⟩ := exists_encoder_of_exec_load h
      obtain ⟨hfit, rfl⟩ := exec_load_next_of_idle he hidle h
      refine .inr fun k => ?_
      by_cases hk : k < s.cursor.toNat ∨ (s.append (encoded e cmd s.window)).cursor.toNat ≤ k
      · exact .inr (append_read_outside hfit hk)
      · obtain ⟨hlow, hup⟩ := not_or.mp hk
        exact .inl ⟨⟨sel, cmd, rfl⟩, hidle, Nat.le_of_not_lt hlow, Nat.lt_of_not_le hup⟩
    · exact .inr fun k => .inr (by rw [hm])
  case pin =>
    by_cases hnew : i = .new
    · exact .inl hnew
    by_cases htick : i = .tick
    · exact .inr (.inl htick)
    · exact .inr (.inr (exec_pin_unchanged h htick hnew))

/-! ### GET after LOAD and after RESET (R36) -/

/-- PB_GET reads the buffer, whatever the slots above it hold (R65). -/
theorem State.pbGet_eq_getElem? (s : State) (i : Nat) : s.pbGet i = s.buf[i]? := by
  rcases Nat.lt_or_ge i s.cursor.toNat with hbelow | habove
  · rw [State.pbGet_below hbelow, List.getElem?_eq_getElem (by simpa using hbelow), State.buf_getElem]
  · rw [State.pbGet_at_or_above habove, List.getElem?_eq_none (by simpa using habove)]

theorem exec_get_of_pbGet {s : State} {index : Word} {o : Option Word} (h : s.pbGet index.toNat = o) :
    exec (.get index) s = .next (s.respond (.word (optionCode o))) := by
  rw [← h]
  rfl

/-- Settles O29: GET reads the buffer, which the LOAD has extended by its durations and a RESET has emptied. -/
theorem getReadsWhatLoadWrote : Obligations.GetReadsWhatLoadWrote := by
  refine ⟨?load, fun s => ⟨s.pbReset, rfl, fun index => exec_get_of_pbGet (o := none) ?reset⟩⟩
  case load =>
    intro s t sel cmd e k index he hkeeps hidle hexec hindex hwindow hk
    rw [exec_load_of_keepsContract he hkeeps hidle] at hexec
    cases hexec
    refine exec_get_of_pbGet (o := some _) ?_
    rw [State.pbGet_eq_getElem?, State.setCounter_buf, append_buf (List.length_take_le _ _), hindex, ← s.buf_length,
      List.getElem?_append_right (Nat.le_add_right _ _), Nat.add_sub_cancel_left,
      List.getElem?_take_of_lt (show k < s.window from hwindow), List.getElem?_eq_getElem hk]
  case reset => rw [State.pbGet_eq_getElem?, State.pbReset_buf, List.getElem?_nil]

end Sys2Proof.Machine

/-! What holds along every run: the invariant of reachable states (R15 to R20, R28), lawful blocks (R99), and states that differ in
stale slots only (R27). -/

namespace Sys2Proof.Machine

/-! ### The invariant, operation by operation -/

section Inv

variable {s : State} (h : s.Inv)
include h

theorem State.Inv.setStream (rest : List Input) : (s.setStream rest).Inv :=
  ⟨h.cfg_wf, h.cursor_le, h.storage_wf, h.storage_lt, h.storage_set, h.counter_lt, h.pin_last⟩

theorem State.Inv.respond (r : Response) : (s.respond r).Inv :=
  ⟨h.cfg_wf, h.cursor_le, h.storage_wf, h.storage_lt, h.storage_set, h.counter_lt, h.pin_last⟩

theorem State.Inv.setCounter {v : Nat} (hv : v < 2 ^ s.cfg.width) : (s.setCounter v).Inv :=
  ⟨h.cfg_wf, h.cursor_le, h.storage_wf, h.storage_lt, h.storage_set, hv, h.pin_last⟩

theorem State.Inv.drivePin (level : Bool) : (s.drivePin level).Inv :=
  ⟨h.cfg_wf, h.cursor_le, h.storage_wf, h.storage_lt, h.storage_set, h.counter_lt, List.getLast?_concat⟩

theorem State.Inv.report : s.report.Inv := (h.drivePin _).respond _

theorem State.Inv.pbReset : s.pbReset.Inv :=
  ⟨h.cfg_wf, Nat.zero_le _, h.storage_wf, h.storage_lt, fun i hi => absurd hi i.not_lt_zero, h.counter_lt, h.pin_last⟩

theorem State.Inv.pbNew : s.pbNew.Inv :=
  ⟨h.cfg_wf, Nat.zero_le _, .nil, nofun, fun i hi => absurd hi i.not_lt_zero, h.counter_lt, h.pin_last⟩

/-- An append that fits lists the slots from the old cursor to the new one, which stays within capacity (R68). -/
theorem State.Inv.append {ds : List Word} (hfit : ds.length ≤ s.window) : (s.append ds).Inv := by
  have hcap : s.cursor.toNat + ds.length ≤ s.cfg.capacity.toNat := by
    have := h.cursor_le
    unfold State.window at hfit
    omega
  refine ⟨h.cfg_wf, (append_cursor_toNat hfit).trans_le hcap, Memory.writeAll_wf h.storage_wf _ _, fun c hc => ?lt,
    fun i hi => ?set, h.counter_lt, h.pin_last⟩
  case lt =>
    rcases (Memory.mem_keys_writeAll _ _ _ _).mp (List.mem_map_of_mem hc) with hold | ⟨-, hnew⟩
    · obtain ⟨c', hc', hkey⟩ := List.mem_map.mp hold
      exact hkey ▸ h.storage_lt c' hc'
    · exact hnew.trans_le hcap
  case set =>
    rw [append_cursor_toNat hfit] at hi
    rw [State.append_storage]
    rcases Nat.lt_or_ge i s.cursor.toNat with hbelow | habove
    · rw [Memory.lookup_writeAll_below _ _ hbelow]
      exact h.storage_set i hbelow
    · obtain ⟨k, rfl⟩ := Nat.exists_eq_add_of_le habove
      rw [Memory.lookup_writeAll_inside _ _ _ (Nat.lt_of_add_lt_add_left hi)]
      rfl

end Inv

theorem State.nextCounter_lt (s : State) : s.nextCounter < 2 ^ s.cfg.width := Nat.mod_lt _ (Nat.two_pow_pos _)

/-- Every command that completes keeps the invariant. -/
theorem exec_keeps_inv {i : Instr} {s t : State} (h : s.Inv) (hexec : exec i s = .next t) : t.Inv := by
  rcases exec_next_cases hexec with ⟨-, rfl⟩ | ⟨_, _, -, -, rfl⟩ | ⟨_, _, _, -, -, -, hfit, rfl⟩ | ⟨-, rfl⟩ | ⟨-, rfl⟩ |
    ⟨_, -, rfl⟩ | ⟨-, rfl⟩ | ⟨-, rfl⟩
  · exact (h.pbNew.setCounter (Nat.two_pow_pos _)).drivePin false
  · exact h
  · exact (h.append ((encoded_length hfit).trans_le hfit)).setCounter (Nat.two_pow_pos _)
  · exact (h.setCounter s.nextCounter_lt).report
  · exact h.pbReset
  · exact h.respond _
  · exact h.respond _
  · exact h.respond _

/-- Settles O50: a step waits, or takes an input and runs a command, and each of the two keeps the invariant. -/
theorem everyStepKeepsTheInvariant : Obligations.EveryStepKeepsTheInvariant := by
  intro s t h hstep
  rcases step_next_cases hstep with ⟨-, rfl⟩ | ⟨_, rest, _, -, -, hexec⟩ | ⟨rest, -, hexec⟩
  · exact h
  · exact exec_keeps_inv (h.setStream rest) hexec
  · exact exec_keeps_inv (h.setStream rest) hexec

theorem resetWith_inv {cfg : Config} (h : cfg.wf = true) : (State.resetWith cfg).Inv :=
  ⟨h, Nat.zero_le _, .nil, nofun, fun i hi => absurd hi i.not_lt_zero, Nat.two_pow_pos _, rfl⟩

/-- Settles O51: nothing is listed and the cursor is 0, for any legal configuration, of which the built one is one. -/
theorem resetMeetsTheInvariant : Obligations.ResetMeetsTheInvariant :=
  ⟨fun _ h => resetWith_inv h, resetWith_inv (by decide)⟩

/-! ### Lawful blocks -/

/-- A well-formed command completes if every encoder keeps its contract: LOAD finds an encoder, which does not overrun. -/
theorem exists_exec_next_of_wf {s : State} (hkeeps : ∀ sel e, encoderAt s.cfg sel = some e → KeepsContract e) {i : Instr}
    (hwf : i.wf s.cfg = true) : ∃ t, exec i s = .next t := by
  by_cases hload : ∃ sel cmd, i = .load sel cmd
  · obtain ⟨sel, cmd, rfl⟩ := hload
    obtain ⟨e, he⟩ := Option.isSome_iff_exists.mp hwf
    by_cases hidle : s.status = .idle
    · exact ⟨_, exec_load_of_keepsContract he (hkeeps sel e he) hidle⟩
    · exact ⟨_, exec_load_of_not_idle he hidle⟩
  · exact exec_next_of_ne_load (fun sel cmd hi => hload ⟨sel, cmd, hi⟩) s

/-- From a lawful state a step answers a next state: it waits, or it runs a well-formed command. -/
theorem exists_step_next {s : State} (h : s.Lawful) : ∃ t, step s = .next t := by
  match hs : s.stream with
  | [] => exact ⟨s, step_of_stream_nil hs⟩
  | .command tx :: rest =>
    obtain ⟨i, hdec, hwf⟩ := h.pending tx (hs ▸ List.mem_cons_self)
    rw [step_of_decode hs hdec]
    exact exists_exec_next_of_wf (s := s.setStream rest) h.encoders hwf
  | .resetInput :: rest => exact ⟨_, step_of_resetInput hs⟩

/-- Settles O54: the step keeps the configuration and leaves the tail of the stream, so what was lawful stays so. -/
theorem lawfulStepGoesOnLawfully : Obligations.LawfulStepGoesOnLawfully := by
  intro s h
  obtain ⟨t, hstep⟩ := exists_step_next h
  have hcfg := noStepChangesTheConfiguration s t hstep
  have hstream := streamIsTakenInOrder s t hstep
  refine ⟨t, hstep, ?_, fun tx htx => ?_⟩
  · rw [hcfg]
    exact h.encoders
  · rw [hcfg]
    exact h.pending tx (List.mem_of_mem_tail (hstream ▸ htx))

/-- Settles O49: by induction on the length of the run, whose first step leaves a lawful state. -/
theorem lawfulRunNeverStops : Obligations.LawfulRunNeverStops := by
  intro k
  induction k with
  | zero => exact fun s _ => ⟨s, rfl⟩
  | succ k ih =>
    intro s h
    obtain ⟨t, hstep, ht⟩ := lawfulStepGoesOnLawfully s h
    rw [runFor_succ_next hstep]
    exact ih t ht

/-! ### States that no command tells apart (R27) -/

section Alike

variable {s t : State} (h : s.Alike t)
include h

theorem State.Alike.status : s.status = t.status := by
  rw [State.status, State.status, h.cfg, h.buf, h.counter]

theorem State.Alike.window : s.window = t.window := by
  rw [State.window, State.window, h.cfg, h.cursor]

theorem State.Alike.pbGet (i : Nat) : s.pbGet i = t.pbGet i := by
  rw [State.pbGet_eq_getElem?, State.pbGet_eq_getElem?, h.buf]

theorem State.Alike.nextCounter : s.nextCounter = t.nextCounter := by
  rw [State.nextCounter, State.nextCounter, h.cfg, h.counter]

theorem State.Alike.setStream (rest : List Input) : (s.setStream rest).Alike (t.setStream rest) :=
  ⟨h.cfg, h.cursor, h.buf, h.counter, h.pinEn, rfl, h.responses, h.pinTrace⟩

theorem State.Alike.setCounter (v : Nat) : (s.setCounter v).Alike (t.setCounter v) :=
  ⟨h.cfg, h.cursor, h.buf, rfl, h.pinEn, h.stream, h.responses, h.pinTrace⟩

theorem State.Alike.drivePin (level : Bool) : (s.drivePin level).Alike (t.drivePin level) :=
  ⟨h.cfg, h.cursor, h.buf, h.counter, rfl, h.stream, h.responses, congrArg (· ++ [level]) h.pinTrace⟩

theorem State.Alike.respond (r : Response) : (s.respond r).Alike (t.respond r) :=
  ⟨h.cfg, h.cursor, h.buf, h.counter, h.pinEn, h.stream, congrArg (· ++ [r]) h.responses, h.pinTrace⟩

theorem State.Alike.report : s.report.Alike t.report := by
  rw [State.report, State.report, h.status]
  exact (h.drivePin _).respond _

theorem State.Alike.pbReset : s.pbReset.Alike t.pbReset :=
  ⟨h.cfg, rfl, rfl, h.counter, h.pinEn, h.stream, h.responses, h.pinTrace⟩

theorem State.Alike.pbNew : s.pbNew.Alike t.pbNew :=
  ⟨h.cfg, rfl, rfl, h.counter, h.pinEn, h.stream, h.responses, h.pinTrace⟩

/-- An append overwrites the stale slots that it makes valid, so it leaves alike states alike. -/
theorem State.Alike.append {ds : List Word} (hfit : ds.length ≤ s.window) : (s.append ds).Alike (t.append ds) :=
  ⟨h.cfg, congrArg (· + _) h.cursor, by rw [append_buf hfit, append_buf (h.window ▸ hfit), h.buf], h.counter, h.pinEn,
    h.stream, h.responses, h.pinTrace⟩

/-- A LOAD is decided by the configuration, the status and the window, in which alike states agree. -/
theorem State.Alike.exec_load (sel : BitVec 4) (cmd : Cmd) :
    AlikeOutcomes (exec (.load sel cmd) s) (exec (.load sel cmd) t) := by
  cases he : encoderAt s.cfg sel with
  | none => rw [exec_load_of_absent he, exec_load_of_absent (h.cfg ▸ he)]; rfl
  | some e =>
    have he' : encoderAt t.cfg sel = some e := h.cfg ▸ he
    by_cases hidle : s.status = .idle
    · have hidle' : t.status = .idle := h.status ▸ hidle
      rcases Nat.lt_or_ge s.window (reportedCount e cmd s.window) with hover | hfit
      · rw [exec_load_of_overrun he hidle hover, exec_load_of_overrun he' hidle' (h.window ▸ hover)]
        rfl
      · rw [exec_load_of_fits he hidle hfit, exec_load_of_fits he' hidle' (h.window ▸ hfit), ← h.window]
        exact (h.append ((encoded_length hfit).trans_le hfit)).setCounter 0
    · rw [exec_load_of_not_idle he hidle, exec_load_of_not_idle he' (h.status ▸ hidle)]
      exact h

theorem State.Alike.exec (i : Instr) : AlikeOutcomes (exec i s) (Machine.exec i t) := by
  cases i with
  | load sel cmd => exact h.exec_load sel cmd
  | new => exact (h.pbNew.setCounter 0).drivePin false
  | tick =>
    rw [exec_tick_eq_report, exec_tick_eq_report, h.nextCounter]
    exact (h.setCounter _).report
  | reset => exact h.pbReset
  | get index =>
    rw [exec_get_of_pbGet rfl, exec_get_of_pbGet (h.pbGet _).symm]
    exact h.respond _
  | len =>
    change (s.respond (.word (lengthCode s.cursor))).Alike (t.respond (.word (lengthCode t.cursor)))
    rw [h.cursor]
    exact h.respond _
  | buffer =>
    change (s.respond (.list s.buf)).Alike (t.respond (.list t.buf))
    rw [h.buf]
    exact h.respond _

/-- Alike states take the same input, which runs alike in the states without it. -/
theorem State.Alike.step : AlikeOutcomes (step s) (Machine.step t) := by
  have hst := h.stream
  match hs : s.stream with
  | [] =>
    rw [step_of_stream_nil hs, step_of_stream_nil (hst ▸ hs)]
    exact h
  | .command tx :: rest =>
    rw [step_of_command hs, step_of_command (hst ▸ hs)]
    unfold runTransaction
    cases decode tx.word tx.sideband with
    | ok i => exact (h.setStream rest).exec i
    | error r => rfl
  | .resetInput :: rest =>
    rw [step_of_resetInput hs, step_of_resetInput (hst ▸ hs)]
    exact (h.setStream rest).exec .new

end Alike

/-- Outcomes are alike in three ways: alike next states, one fault, or one refusal. -/
theorem alikeOutcomes_cases {a b : Host.Outcome State Fault Refusal} (h : AlikeOutcomes a b) :
    (∃ s t, a = .next s ∧ b = .next t ∧ s.Alike t) ∨ (∃ r, a = .fault r ∧ b = .fault r) ∨
    ∃ r, a = .refused r ∧ b = .refused r := by
  unfold AlikeOutcomes at h
  split at h
  · exact .inl ⟨_, _, rfl, rfl, h⟩
  · exact .inr (.inl ⟨_, rfl, h ▸ rfl⟩)
  · exact .inr (.inr ⟨_, rfl, h ▸ rfl⟩)
  · exact h.elim

/-- Settles O52: by induction on the length of the run; two alike steps go on alike or stop for one reason. -/
theorem alikeStatesAnswerAlike : Obligations.AlikeStatesAnswerAlike := by
  intro k
  induction k with
  | zero => exact fun s t h => h
  | succ k ih =>
    intro s t h
    rcases alikeOutcomes_cases h.step with ⟨s', t', hs, ht, h'⟩ | ⟨r, hs, ht⟩ | ⟨r, hs, ht⟩
    · rw [runFor_succ_next hs, runFor_succ_next ht]
      exact ih s' t' h'
    · rw [runFor_succ_fault hs, runFor_succ_fault ht]
      rfl
    · rw [runFor_succ_refused hs, runFor_succ_refused ht]
      rfl

end Sys2Proof.Machine

/-! Runs of a program: what a train gives tick by tick (R76, R77, R83), TICKS (R58), and how a train begins, ends and begins again
(R84, 70_reset_and_hazards.md). -/

namespace Sys2Proof.Machine

/-! ### The status of a well-timed train -/

theorem status_eq_idle_iff {W : Nat} {buf : List Word} {e : Nat} :
    status W buf e = .idle ↔ buf = [] ∨ (WellTimed W buf ∧ total buf < e) := by
  constructor
  · intro hidle
    rcases status_cases W buf e with ⟨hnil, -⟩ | ⟨-, -, hst⟩ | ⟨-, hw, hend, -⟩ | ⟨-, _, -, -, -, hst⟩
    · exact .inl hnil
    · simp [hst] at hidle
    · exact .inr ⟨hw, hend⟩
    · simp [hst] at hidle
  · rintro (rfl | ⟨hw, hend⟩)
    · exact status_nil W e
    · exact status_past_end hw hend

/-- Settles O32: among the cases of the status, `Idle` is the empty buffer's and the finished train's. -/
theorem idleExactlyWhenEmptyOrPastTheEnd : Obligations.IdleExactlyWhenEmptyOrPastTheEnd :=
  fun _ _ _ => status_eq_idle_iff

/-- Settles O33: the segment between whose boundaries the elapsed value lies is the one of the status. -/
theorem segmentGivesItsParity : Obligations.SegmentGivesItsParity :=
  fun _ _ _ _ hw hi hlow hup => status_in_segment hw hi hup (hlow.imp_right And.right)

theorem total_pos {buf : List Word} (hne : buf ≠ []) (hzero : 0#32 ∉ buf) : 0 < total buf := by
  cases buf with
  | nil => exact absurd rfl hne
  | cons d ds =>
    have hd : d.toNat ≠ 0 := fun h => hzero (BitVec.eq_of_toNat_eq (y := 0#32) h ▸ List.mem_cons_self)
    rw [total_cons]
    omega

/-- A well-timed train ends before the counter wraps (E-LONG, R78). -/
theorem WellTimed.total_succ_lt {W : Nat} {buf : List Word} (h : WellTimed W buf) (hne : buf ≠ []) :
    total buf + 1 < 2 ^ W := by
  obtain ⟨hzero, hlen⟩ := h
  have hpos := total_pos hne hzero
  omega

/-- Up to its total a nonempty buffer is busy: well timed it is being sent, malformed it is in `Error`. -/
theorem status_ne_idle {W e : Nat} {buf : List Word} (hne : buf ≠ []) (he : e ≤ total buf) : status W buf e ≠ .idle := by
  intro hidle
  rcases status_eq_idle_iff.mp hidle with hnil | ⟨-, hend⟩
  · exact hne hnil
  · exact absurd hend (Nat.not_lt.mpr he)

/-! ### LOADs around the ends of a train -/

/-- Settles O42: the first LOAD leaves the counter at 0, where a nonempty buffer is busy. -/
theorem secondLoadBeforeATickIsIgnored : Obligations.SecondLoadBeforeATickIsIgnored := by
  intro s t sel sel' cmd cmd' e' hidle h hne he'
  have hbusy : t.status ≠ .idle := by
    rw [State.status, exec_load_counter hidle h]
    exact status_ne_idle hne (Nat.zero_le _)
  exact exec_load_of_not_idle ((exec_next_cfg h).symm ▸ he') hbusy

theorem State.nextCounter_of_lt {s : State} (h : s.counter + 1 < 2 ^ s.cfg.width) : s.nextCounter = s.counter + 1 :=
  Nat.mod_eq_of_lt h

/-- Settles O43: at the total the block is busy, and the TICK carries the counter past it. -/
theorem loadAtTheEndDependsOnTheOrder : Obligations.LoadAtTheEndDependsOnTheOrder := by
  intro s sel cmd e he hkeeps hne hw hend
  have hbusy : s.status ≠ .idle := status_ne_idle hne hend.le
  have hnext : s.nextCounter = total s.buf + 1 := by
    rw [← hend]
    exact State.nextCounter_of_lt (hend ▸ hw.total_succ_lt hne)
  have hidle : (s.setCounter s.nextCounter).report.status = .idle := by
    rw [State.report_status, State.setCounter_status, hnext]
    exact status_past_end hw (Nat.lt_succ_self _)
  exact ⟨exec_load_of_not_idle he hbusy, _, _, exec_tick_eq_report s, hidle, exec_load_of_keepsContract he hkeeps hidle,
    append_buf (List.length_take_le _ _), rfl⟩

/-! ### The waveform of a train -/

/-- The level in segment `k` of a waveform that begins with `c`: `c` in the even segments, `!c` in the odd ones (R77). -/
theorem waveform_getElem? {ds : List Word} {c : Bool} {j k : Nat} (hk : k < ds.length) (hlow : boundary ds k ≤ j)
    (hup : j < boundary ds (k + 1)) : (waveform c ds)[j]? = some (c == (k % 2 == 0)) := by
  induction ds generalizing c j k with
  | nil => exact absurd hk k.not_lt_zero
  | cons d ds ih =>
    rw [boundary_cons_succ] at hup
    rw [waveform]
    cases k with
    | zero =>
      rw [boundary_zero, Nat.add_zero] at hup
      rw [List.getElem?_append_left (by simpa using hup), List.getElem?_replicate_of_lt hup]
      simp
    | succ k =>
      rw [boundary_cons_succ] at hlow
      rw [List.getElem?_append_right (by simp; omega), List.length_replicate,
        ih (c := !c) (Nat.lt_of_succ_lt_succ hk) (by omega) (by omega)]
      rcases Nat.mod_two_eq_zero_or_one k with hpar | hpar
      · simp [Nat.succ_mod_two_eq_one_iff.mpr hpar, hpar]
      · simp [Nat.succ_mod_two_eq_zero_iff.mpr hpar, hpar]

/-- From elapsed value 1 to the total the statuses of a well-timed train are its waveform (R77). -/
theorem statuses_eq_waveform {W : Nat} {buf : List Word} (hw : WellTimed W buf) :
    (List.range (total buf)).map (fun j => status W buf (j + 1)) = (waveform true buf).map .transmit := by
  apply List.ext_getElem?
  intro j
  rcases Nat.lt_or_ge j (total buf) with hj | hj
  · have hne : buf ≠ [] := by rintro rfl; exact absurd hj (Nat.not_lt_zero j)
    obtain ⟨k, hk, hup, hlow⟩ := exists_segment hne (show j + 1 ≤ total buf from hj)
    have hlow' : boundary buf k ≤ j := by
      rcases hlow with hlt | rfl
      · exact Nat.le_of_lt_succ hlt
      · simp
    rw [List.getElem?_map, List.getElem?_map, List.getElem?_range hj, waveform_getElem? hk hlow' hup, Option.map_some,
      Option.map_some, status_in_segment hw hk hup hlow, Bool.true_beq]
  · rw [List.getElem?_eq_none (by simpa using hj), List.getElem?_eq_none (by simpa [waveform_length] using hj)]

/-- The high levels of a waveform that begins with a mark are its marks (R83). -/
theorem waveform_count_true (ds : List Word) : (waveform true ds).count true = markTime ds := by
  induction ds using markTime.induct with
  | case1 => rfl
  | case2 d => simp [waveform, markTime]
  | case3 d d' ds ih => simp [waveform, markTime, List.count_replicate, ih]

/-! ### Running a program -/

/-- A command that completes does the same whatever inputs wait behind it (R35). -/
theorem exec_setStream {i : Instr} {s t : State} (h : exec i s = .next t) (rest : List Input) :
    exec i (s.setStream rest) = .next (t.setStream rest) := by
  cases i with
  | load sel cmd =>
    obtain ⟨e, he⟩ := exists_encoder_of_exec_load h
    by_cases hidle : s.status = .idle
    · have hfit := reportedCount_le_of_exec_load he hidle h
      rw [exec_load_of_fits he hidle hfit] at h
      cases h
      exact exec_load_of_fits (s := s.setStream rest) he hidle hfit
    · rw [exec_load_next_of_not_idle hidle h]
      exact exec_load_of_not_idle (s := s.setStream rest) he hidle
  | new => cases h; rfl
  | tick => cases h; rfl
  | reset => cases h; rfl
  | get index => cases h; rfl
  | len => cases h; rfl
  | buffer => cases h; rfl

/-- A program's first command runs, and the run goes on with the rest of the program. -/
theorem runFor_withProgram_cons {i : Instr} {s t : State} (h : exec i s = .next t) (k : Nat) (is : List Instr) :
    runFor (k + 1) (s.withProgram (i :: is)) = runFor k (t.withProgram is) := by
  apply runFor_succ_next
  rw [step_of_decode (State.withProgram_cons s i is) (decode_encode i), State.withProgram_rest, State.withProgram,
    exec_setStream h, State.withProgram, exec_next_stream h]

/-! ### TICKS -/

/-- The state that one TICK leaves (R89). -/
def State.ticked (s : State) : State := (s.setCounter s.nextCounter).report

/-- The statuses that `k` TICKs see. -/
def State.tickStatuses (s : State) (k : Nat) : List Status :=
  (List.range k).map fun j => Machine.status s.cfg.width s.buf ((s.counter + (j + 1)) % 2 ^ s.cfg.width)

theorem exec_tick_eq_ticked (s : State) : exec .tick s = .next s.ticked := exec_tick_eq_report s

theorem runFor_ticks (k : Nat) (s : State) : runFor k (s.withProgram (ticks k)) = .next (State.ticked^[k] s) := by
  induction k generalizing s with
  | zero => rfl
  | succ k ih =>
    rw [ticks, List.replicate_succ, runFor_withProgram_cons (exec_tick_eq_ticked s), Function.iterate_succ_apply]
    exact ih s.ticked

/-- What one TICK leaves unchanged, any number of them does. -/
theorem ticks_unchanged {α : Type} (f : State → α) (hf : ∀ s, f s.ticked = f s) (k : Nat) (s : State) :
    f (State.ticked^[k] s) = f s := by
  induction k with
  | zero => rfl
  | succ k ih => rw [Function.iterate_succ_apply', hf, ih]

section Ticks

variable (k : Nat) (s : State)

@[simp] theorem ticks_cfg : (State.ticked^[k] s).cfg = s.cfg := ticks_unchanged State.cfg (fun _ => rfl) k s
@[simp] theorem ticks_cursor : (State.ticked^[k] s).cursor = s.cursor := ticks_unchanged State.cursor (fun _ => rfl) k s
@[simp] theorem ticks_storage : (State.ticked^[k] s).storage = s.storage := ticks_unchanged State.storage (fun _ => rfl) k s
@[simp] theorem ticks_stream : (State.ticked^[k] s).stream = s.stream := ticks_unchanged State.stream (fun _ => rfl) k s
@[simp] theorem ticks_buf : (State.ticked^[k] s).buf = s.buf := ticks_unchanged State.buf (fun _ => rfl) k s

theorem ticks_succ_counter : (State.ticked^[k + 1] s).counter = (s.counter + (k + 1)) % 2 ^ s.cfg.width := by
  induction k with
  | zero => rfl
  | succ k ih =>
    have hnext : (State.ticked^[k + 2] s).counter = (State.ticked^[k + 1] s).nextCounter := by
      rw [Function.iterate_succ_apply']
      rfl
    rw [hnext, State.nextCounter, ih, ticks_cfg, Nat.mod_add_mod, Nat.add_assoc]

/-- The counter after `k` TICKs, of a state whose counter is a `W`-bit value (R17). -/
theorem ticks_counter (h : s.counter < 2 ^ s.cfg.width) :
    (State.ticked^[k] s).counter = (s.counter + k) % 2 ^ s.cfg.width := by
  cases k with
  | zero => exact (Nat.mod_eq_of_lt h).symm
  | succ k => exact ticks_succ_counter k s

theorem ticks_succ_status :
    (State.ticked^[k + 1] s).status = Machine.status s.cfg.width s.buf ((s.counter + (k + 1)) % 2 ^ s.cfg.width) := by
  rw [State.status, ticks_cfg, ticks_buf, ticks_succ_counter]

theorem ticks_succ_pinEn : (State.ticked^[k + 1] s).pinEn = pinLevel (State.ticked^[k + 1] s).status := by
  rw [Function.iterate_succ_apply']
  rfl

theorem tickStatuses_succ : s.tickStatuses (k + 1) = s.tickStatuses k ++ [(State.ticked^[k + 1] s).status] := by
  rw [ticks_succ_status, State.tickStatuses, List.range_succ, List.map_append]
  rfl

theorem tickStatuses_length : (s.tickStatuses k).length = k := by
  rw [State.tickStatuses, List.length_map, List.length_range]

/-- Each TICK answers the status it sees (R89). -/
theorem ticks_responses : (State.ticked^[k] s).responses =
    s.responses ++ (s.tickStatuses k).map fun st => .word (statusCode st) := by
  induction k with
  | zero => exact (List.append_nil _).symm
  | succ k ih =>
    have hlast : (State.ticked^[k + 1] s).responses =
        (State.ticked^[k] s).responses ++ [.word (statusCode (State.ticked^[k + 1] s).status)] := by
      rw [Function.iterate_succ_apply']
      rfl
    rw [hlast, ih, tickStatuses_succ, List.map_append, List.append_assoc]
    rfl

/-- Each TICK drives the pin by the status it sees (R90). -/
theorem ticks_pinTrace : (State.ticked^[k] s).pinTrace = s.pinTrace ++ (s.tickStatuses k).map pinLevel := by
  induction k with
  | zero => exact (List.append_nil _).symm
  | succ k ih =>
    have hlast : (State.ticked^[k + 1] s).pinTrace =
        (State.ticked^[k] s).pinTrace ++ [pinLevel (State.ticked^[k + 1] s).status] := by
      rw [Function.iterate_succ_apply']
      rfl
    rw [hlast, ih, tickStatuses_succ, List.map_append, List.append_assoc]
    rfl

end Ticks

/-- Settles O35: what `k` TICKs leave of each field, and one response and one pin level for each of them. -/
theorem ticksAdvanceTheCounter : Obligations.TicksAdvanceTheCounter := by
  intro k s h
  refine ⟨_, runFor_ticks k s, ticks_counter k s h, ticks_cursor k s, ticks_storage k s, ticks_stream k s, ?_, ?_⟩
  · rw [ticks_responses, List.length_append, List.length_map, tickStatuses_length]
  · rw [ticks_pinTrace, List.length_append, List.length_map, tickStatuses_length]

/-! ### Sending a train -/

/-- The TICKs from counter 0 to a well-timed train's total see its waveform (R77). -/
theorem tickStatuses_total {s : State} (hne : s.buf ≠ []) (hw : WellTimed s.cfg.width s.buf) (h0 : s.counter = 0) :
    s.tickStatuses (total s.buf) = (waveform true s.buf).map .transmit := by
  have hwrap := hw.total_succ_lt hne
  rw [← statuses_eq_waveform hw, State.tickStatuses]
  refine List.map_congr_left fun j hj => ?_
  have hj' := List.mem_range.mp hj
  rw [h0, Nat.zero_add, Nat.mod_eq_of_lt (by omega)]

theorem statusCode_transmit (c : Bool) : Response.word (statusCode (.transmit c)) = transmitResponse c := by
  cases c with
  | false => rfl
  | true => rfl

/-- The TICKs that send a train answer and drive its waveform. -/
theorem ticks_total_traces {s : State} (hne : s.buf ≠ []) (hw : WellTimed s.cfg.width s.buf) (h0 : s.counter = 0) :
    (State.ticked^[total s.buf] s).responses = s.responses ++ (waveform true s.buf).map transmitResponse ∧
    (State.ticked^[total s.buf] s).pinTrace = s.pinTrace ++ waveform true s.buf := by
  constructor
  · rw [ticks_responses, tickStatuses_total hne hw h0, List.map_map]
    exact congrArg _ (List.map_congr_left fun c _ => statusCode_transmit c)
  · rw [ticks_pinTrace, tickStatuses_total hne hw h0, List.map_map]
    exact congrArg _ (List.map_id _)

theorem ticks_total_counter {s : State} (hne : s.buf ≠ []) (hw : WellTimed s.cfg.width s.buf) (h0 : s.counter = 0) :
    (State.ticked^[total s.buf] s).counter = total s.buf := by
  rw [ticks_counter _ _ (h0 ▸ Nat.two_pow_pos _), h0, Nat.zero_add]
  exact Nat.mod_eq_of_lt (Nat.lt_of_succ_lt (hw.total_succ_lt hne))

/-- Settles O36: the LOAD leaves the train at counter 0, and the TICKs behind it send its waveform. -/
theorem loadedTrainIsSentSegmentBySegment : Obligations.LoadedTrainIsSentSegmentBySegment := by
  intro s sel cmd e buf he hkeeps hempty hbuf hne hw
  obtain ⟨t, hload, h0, htbuf⟩ := exec_load_pbReset (s := s) (cmd := cmd) he hkeeps
  rw [State.pbReset_of_empty hempty] at hload
  rw [← hbuf] at htbuf
  subst htbuf
  have hcfg := exec_next_cfg hload
  rw [← hcfg] at hw
  have hresp : t.responses = s.responses := by simpa using exec_next_responses hload
  obtain ⟨-, hpin⟩ := exec_pin_unchanged hload (by simp) (by simp)
  obtain ⟨hresponses, htrace⟩ := ticks_total_traces hne hw h0
  refine ⟨_, ?_, hresp ▸ hresponses, hpin ▸ htrace, ticks_total_counter hne hw h0, ticks_buf _ t,
    (ticks_stream _ t).trans (exec_next_stream hload)⟩
  rw [Nat.add_comm, runFor_withProgram_cons hload, runFor_ticks]

/-- Settles O37: the levels are the waveform, whose high levels are the marks. -/
theorem pinIsHighForExactlyTheMarks : Obligations.PinIsHighForExactlyTheMarks := by
  intro s hne hw h0
  obtain ⟨-, htrace⟩ := ticks_total_traces hne hw h0
  exact ⟨_, _, runFor_ticks _ s, htrace, waveform_length true s.buf, waveform_count_true s.buf⟩

/-- Settles O38: the last of the TICKs sees an elapsed value past the total, and drives the pin low for it. -/
theorem trainEndsAndStaysIdle : Obligations.TrainEndsAndStaysIdle := by
  intro k s hne hw hk hend hwrap
  obtain ⟨k, rfl⟩ := Nat.exists_eq_succ_of_ne_zero hk.ne'
  have hcounter : (s.counter + (k + 1)) % 2 ^ s.cfg.width = s.counter + (k + 1) := Nat.mod_eq_of_lt hwrap
  have hidle : (State.ticked^[k + 1] s).status = .idle := by
    rw [ticks_succ_status, hcounter]
    exact status_past_end hw hend
  refine ⟨_, runFor_ticks _ s, (ticks_succ_counter k s).trans hcounter, ticks_buf _ s, hidle, ?_⟩
  rw [ticks_succ_pinEn, hidle]
  rfl

/-- The TICKs from a finished train to the wrap see `Idle`, the one that wraps sees the first mark (R84). -/
theorem tickStatuses_wrap {s : State} {k : Nat} (hne : s.buf ≠ []) (hw : WellTimed s.cfg.width s.buf)
    (hend : total s.buf ≤ s.counter) (hwrap : s.counter + k + 1 = 2 ^ s.cfg.width) :
    s.tickStatuses (k + 1) = List.replicate k .idle ++ [.transmit true] := by
  have hidle : s.tickStatuses k = List.replicate k .idle := by
    refine List.eq_replicate_iff.mpr ⟨tickStatuses_length k s, fun st hst => ?_⟩
    obtain ⟨j, hj, rfl⟩ := List.mem_map.mp hst
    have hj' := List.mem_range.mp hj
    rw [Nat.mod_eq_of_lt (by omega)]
    exact status_past_end hw (by omega)
  rw [tickStatuses_succ, hidle, ticks_succ_status, ← Nat.add_assoc, hwrap, Nat.mod_self, status_at_zero hne hw]

/-- Settles O39: the statuses up to the wrap, as responses and as pin levels. -/
theorem counterWrapReplaysTheTrain : Obligations.CounterWrapReplaysTheTrain := by
  intro s k hne hw hend hwrap
  have hstatuses := tickStatuses_wrap hne hw hend hwrap
  refine ⟨_, runFor_ticks _ s, ?_, ?_, ?_, ticks_buf _ s⟩
  · rw [ticks_responses, hstatuses, List.map_append, List.map_replicate, List.append_assoc]
    rfl
  · rw [ticks_pinTrace, hstatuses, List.map_append, List.map_replicate, List.append_assoc]
    rfl
  · rw [ticks_succ_counter, ← Nat.add_assoc, hwrap, Nat.mod_self]

/-! ### ABORT and RELOAD (R58) -/

/-- Settles O45: RESET empties the buffer, and a TICK of an empty buffer answers `Idle` and drives the pin low. -/
theorem abortDrivesThePinLow : Obligations.AbortDrivesThePinLow := by
  intro s
  have hreset : exec .reset s = .next s.pbReset := rfl
  have htick := exec_tick_of_buf_nil s.pbReset_buf
  exact ⟨_, (runFor_withProgram_cons hreset 1 [.tick]).trans (runFor_withProgram_cons htick 0 []), rfl, rfl,
    State.status_of_buf_nil rfl, rfl, rfl, rfl⟩

/-- Settles O46: after the RESET the block is idle and the whole of it is the window (R91), whatever the status was. -/
theorem reloadIsAlwaysAccepted : Obligations.ReloadIsAlwaysAccepted := by
  intro s n ds e _ he hkeeps
  have hreset : exec .reset s = .next s.pbReset := rfl
  obtain ⟨t, hload, h0, hbuf⟩ := exec_load_pbReset (s := s) (cmd := ds.map (BitVec.ofNat 32)) he hkeeps
  have hresp : t.responses = s.responses := by simpa using exec_next_responses hload
  obtain ⟨hpin, -⟩ := exec_pin_unchanged hload (by simp) (by simp)
  refine ⟨t, ?_, hbuf, h0, hpin, hresp, (exec_next_stream hload).trans s.pbReset_stream⟩
  rw [expand, runFor_withProgram_cons hreset, runFor_withProgram_cons hload]
  rfl

end Sys2Proof.Machine
